-- ==== Sys2Proof/Word.lean ====
section
/-!
DEFINITION. The bit-vector types of the lab07 core: words, fields, register numbers (00_scope.md R6, R9).
-/

namespace Sys2Proof

/-- A word: every register, data cell, ALU operand and result, and the PC (R6, R9). -/
abbrev Word := BitVec 32

/-- The 16-bit `imm` field (R6). -/
abbrev Half := BitVec 16

/-- A register number, a 5-bit field with values 0 to 31 (R6, R14). -/
abbrev RegIdx := BitVec 5

/-- An `op` or `func` field (R6). -/
abbrev Code := BitVec 6

end Sys2Proof
end

