-- ==== Sys2Proof/Syntax.lean ====
section
/-!
DEFINITION. The abstract syntax: the fields of a word (30_encoding.md R49), the nine instructions
(00_scope.md R2, one constructor per row of the opcode table), what the decoder answers, the rows of
the opcode table, and the assembler's instruction forms (30_encoding.md R65).
-/

namespace Sys2Proof

/-- The fields the InstructionDecoder extracts from every word (R49). -/
structure Fields where
  op   : Code
  rs   : RegIdx
  rt   : RegIdx
  rd   : RegIdx
  func : Code
  imm  : Half
  deriving DecidableEq, Repr

/-- The nine instructions (R2), with the operands in the order of the word's fields.
Every term of this type is well-formed: a register number has exactly 5 bits and an immediate exactly 16.
Bits [10:6] of an R-format word are no operand (R51). LUI keeps its `rs` field, which its result ignores (R96). -/
inductive Instr where
  | add  (rs rt rd : RegIdx)
  | and  (rs rt rd : RegIdx)
  | slt  (rs rt rd : RegIdx)
  | addi (rs rt : RegIdx) (imm : Half)
  | lui  (rs rt : RegIdx) (imm : Half)
  | ori  (rs rt : RegIdx) (imm : Half)
  | lw   (rs rt : RegIdx) (imm : Half)
  | sw   (rs rt : RegIdx) (imm : Half)
  | beq  (rs rt : RegIdx) (imm : Half)
  deriving DecidableEq, Repr

/-- What decoding a word answers: one of the nine instructions, or the name of the unsupported pair `(op, func)`
that the control unit does not match (R58, R61). -/
inductive Decoded where
  | instr (i : Instr)
  | unsupported (op func : Code)
  deriving DecidableEq, Repr

/-- A row of the opcode table: a word `w` is the instruction when `w &&& mask = pattern` (INDEX.md). -/
structure OpRow where
  mnemonic : String
  pattern  : Word
  mask     : Word
  deriving DecidableEq, Repr

/-- The word matches the row. -/
abbrev OpRow.Matches (r : OpRow) (w : Word) : Prop := w &&& r.mask = r.pattern

/-- An instruction as an assembler's user writes it (R65): operands in the written order, register numbers and
immediates as plain numbers, which may be out of range. -/
inductive AsmInstr where
  | add  (rd rs rt : Nat)
  | and  (rd rs rt : Nat)
  | slt  (rd rs rt : Nat)
  | addi (rt rs : Nat) (imm : Int)
  | ori  (rt rs : Nat) (imm : Int)
  | lui  (rt : Nat) (imm : Int)
  | lw   (rt : Nat) (imm : Int) (rs : Nat)
  | sw   (rt : Nat) (imm : Int) (rs : Nat)
  | beq  (rs rt : Nat) (imm : Int)
  deriving DecidableEq, Repr

end Sys2Proof
end

