-- ==== Sys2Proof/Decode.lean ====
section
/-!
DEFINITION. The InstructionDecoder (30_encoding.md R48-R53), the reading of a word as one of the nine instructions
(R57, R58, R61), the encoder, and the opcode table's rows.
-/

namespace Sys2Proof

/-- `sext_32`: the immediate, sign-extended to a word (00_scope.md R10, 30_encoding.md R52). -/
def sext32 (imm : Half) : Word := imm.signExtend 32

/-! ## Fields (R49); bit 31 is the most significant (00_scope.md R8; PRESUMED, entry 13) -/

/-- `op = w[31:26]`. -/
def fieldOp (w : Word) : Code := w.extractLsb' 26 6
/-- `rs = w[25:21]`. -/
def fieldRs (w : Word) : RegIdx := w.extractLsb' 21 5
/-- `rt = w[20:16]`. -/
def fieldRt (w : Word) : RegIdx := w.extractLsb' 16 5
/-- `rd = w[15:11]`. -/
def fieldRd (w : Word) : RegIdx := w.extractLsb' 11 5
/-- `func = w[5:0]`. -/
def fieldFunc (w : Word) : Code := w.extractLsb' 0 6
/-- `imm = w[15:0]`. -/
def fieldImm (w : Word) : Half := w.extractLsb' 0 16

/-- Every field, from every word, whatever its format (R48, R49, R53). -/
def decodeFields (w : Word) : Fields :=
  { op := fieldOp w, rs := fieldRs w, rt := fieldRt w, rd := fieldRd w, func := fieldFunc w, imm := fieldImm w }

/-! ## The `op` and `func` codes of the control table (R57) -/

def opRFormat : Code := 0x00#6
def opAddi : Code := 0x08#6
def opLui : Code := 0x0F#6
def opOri : Code := 0x0D#6
def opLw : Code := 0x23#6
def opSw : Code := 0x2B#6
def opBeq : Code := 0x04#6
def funcAdd : Code := 0x20#6
def funcAnd : Code := 0x24#6
def funcSlt : Code := 0x2A#6

/-- The instruction the fields name (R58, R61): `func` selects only under `op = 0`, and is a don't-care otherwise.
Any other pair is rejected by its name. -/
def instrOf (op func : Code) (rs rt rd : RegIdx) (imm : Half) : Decoded :=
  if op = opRFormat then
    if func = funcAdd then .instr (.add rs rt rd)
    else if func = funcAnd then .instr (.and rs rt rd)
    else if func = funcSlt then .instr (.slt rs rt rd)
    else .unsupported op func
  else if op = opAddi then .instr (.addi rs rt imm)
  else if op = opLui then .instr (.lui rs rt imm)
  else if op = opOri then .instr (.ori rs rt imm)
  else if op = opLw then .instr (.lw rs rt imm)
  else if op = opSw then .instr (.sw rs rt imm)
  else if op = opBeq then .instr (.beq rs rt imm)
  else .unsupported op func

/-- Decoding a word: total, no failure case of its own (R48). -/
def decode (w : Word) : Decoded :=
  instrOf (fieldOp w) (fieldFunc w) (fieldRs w) (fieldRt w) (fieldRd w) (fieldImm w)

/-! ## The encoder -/

/-- The R-format layout, with 0 in the unused bits [10:6] (R50, R51). -/
def encodeR (func : Code) (rs rt rd : RegIdx) : Word := opRFormat ++ rs ++ rt ++ rd ++ 0#5 ++ func

/-- The I-format layout (R50). -/
def encodeI (op : Code) (rs rt : RegIdx) (imm : Half) : Word := op ++ rs ++ rt ++ imm

/-- The word of an instruction (R50, R57). -/
def encode : Instr → Word
  | .add rs rt rd   => encodeR funcAdd rs rt rd
  | .and rs rt rd   => encodeR funcAnd rs rt rd
  | .slt rs rt rd   => encodeR funcSlt rs rt rd
  | .addi rs rt imm => encodeI opAddi rs rt imm
  | .lui rs rt imm  => encodeI opLui rs rt imm
  | .ori rs rt imm  => encodeI opOri rs rt imm
  | .lw rs rt imm   => encodeI opLw rs rt imm
  | .sw rs rt imm   => encodeI opSw rs rt imm
  | .beq rs rt imm  => encodeI opBeq rs rt imm

/-! ## The opcode table (opcode_table.json; the match and mask of R92-R101) -/

def rowAdd : OpRow := { mnemonic := "ADD", pattern := 0x00000020#32, mask := 0xFC00003F#32 }
def rowAnd : OpRow := { mnemonic := "AND", pattern := 0x00000024#32, mask := 0xFC00003F#32 }
def rowSlt : OpRow := { mnemonic := "SLT", pattern := 0x0000002A#32, mask := 0xFC00003F#32 }
def rowAddi : OpRow := { mnemonic := "ADDI", pattern := 0x20000000#32, mask := 0xFC000000#32 }
def rowLui : OpRow := { mnemonic := "LUI", pattern := 0x3C000000#32, mask := 0xFC000000#32 }
def rowOri : OpRow := { mnemonic := "ORI", pattern := 0x34000000#32, mask := 0xFC000000#32 }
def rowLw : OpRow := { mnemonic := "LW", pattern := 0x8C000000#32, mask := 0xFC000000#32 }
def rowSw : OpRow := { mnemonic := "SW", pattern := 0xAC000000#32, mask := 0xFC000000#32 }
def rowBeq : OpRow := { mnemonic := "BEQ", pattern := 0x10000000#32, mask := 0xFC000000#32 }

/-- The nine rows. -/
def opcodeTable : List OpRow := [rowAdd, rowAnd, rowSlt, rowAddi, rowLui, rowOri, rowLw, rowSw, rowBeq]

/-- The row of an instruction. -/
def rowOf : Instr → OpRow
  | .add _ _ _  => rowAdd
  | .and _ _ _  => rowAnd
  | .slt _ _ _  => rowSlt
  | .addi _ _ _ => rowAddi
  | .lui _ _ _  => rowLui
  | .ori _ _ _  => rowOri
  | .lw _ _ _   => rowLw
  | .sw _ _ _   => rowSw
  | .beq _ _ _  => rowBeq

/-! ## The host's table words -/

/-- The word whose low `nbits` bits are `w`'s and whose other bits are 0. -/
def tableWord (nbits w : Nat) : Word := BitVec.ofNat 32 (w % 2 ^ nbits)

/-- The instruction the decoder reads from a table word. Memory holds whole words, so there is no byte order (R35). -/
def decodeTableWord (nbits w : Nat) : Option Instr :=
  match decode (tableWord nbits w) with
  | .instr i => some i
  | .unsupported _ _ => none

end Sys2Proof
end

