-- ==== Sys2Proof/Config.lean ====
section
/-!
DEFINITION. What is fixed for a run: the launch parameters (00_scope.md R7), and the free values that stand for
what the source never gives (93_implementation_defined.md UD9, UD13).
-/

namespace Sys2Proof

/-- `UNSUPPORTED_POLICY`: what an unsupported encoding does (R7, R62). -/
inductive UnsupportedPolicy where
  /-- The reference behaviour: a no-op that advances `pc`. -/
  | nop
  /-- The stricter mode: the model fault `UnsupportedOpcode`. -/
  | fault
  deriving DecidableEq, Repr

/-- The arguments of a launch (R7): the image `IMEM`, `DMEM_WORDS`, `RF_INIT` and `UNSUPPORTED_POLICY`. -/
structure Launch where
  imem      : List Word
  dmemWords : Nat
  rfInit    : Vector Word 32
  policy    : UnsupportedPolicy
  deriving DecidableEq, Repr

/-- The largest `DMEM_WORDS` (R7): an index has 32 bits. -/
def Config.maxDmemWords : Nat := 2 ^ 32

/-- FREE VALUE (DESIGN CHOICE, entry 10; safe): the ALU result of `alu_op` code 0, which only the zero bundle emits.
The source names no operation for it and no state depends on it (R55, R59, R77; UD13). -/
opaque Config.zeroCodeResult : Word → Word → Word

/-- FREE VALUE (DESIGN CHOICE, entry 10; safe): whether `alu_src` code 0 means `REG` (R55, R59; UD9). -/
opaque Config.zeroCodeIsReg : Bool

end Sys2Proof
end

