-- ==== Sys2Proof/Machine/Alu.lean ====
section
/-!
DEFINITION. The ALU's operations (40_datapath.md R69-R80): 32-bit words, sums modulo 2^32, no trap.
-/

namespace Sys2Proof.Machine

/-- `ADD`: the sum modulo 2^32 (R72). -/
def aluAdd (a b : Word) : Word := a + b

/-- `AND`: bitwise (R73). -/
def aluAnd (a b : Word) : Word := a &&& b

/-- `OR`: bitwise (R74). -/
def aluOr (a b : Word) : Word := a ||| b

/-- `SHL16`: operand `b` shifted left by 16 and truncated; operand `a` has no effect (R75). -/
def aluShl16 (b : Word) : Word := b <<< 16

/-- `SLT`: 1 if `s(a) < s(b)`, else 0 (R76). -/
def aluSlt (a b : Word) : Word := if a.toInt < b.toInt then 1#32 else 0#32

/-- The symbolic `alu_op` values (R55), and code 0 of the zero bundle, which is none of them (R59, R77). -/
inductive AluOp where
  | add
  | and
  | or
  | shl16
  | slt
  | code0
  deriving DecidableEq, Repr

/-- `result`, by the selector (R69, R77). Code 0's result is a free value that no state depends on (UD13). -/
def alu (op : AluOp) (a b : Word) : Word :=
  match op with
  | .add => aluAdd a b
  | .and => aluAnd a b
  | .or => aluOr a b
  | .shl16 => aluShl16 b
  | .slt => aluSlt a b
  | .code0 => Config.zeroCodeResult a b

end Sys2Proof.Machine
end

