-- ==== Sys2Proof/Machine/Launch.lean ====
section
/-!
DEFINITION. The default launch: the values of the launch parameters that `State.reset` is built from
(00_scope.md R7, 70_reset_and_hazards.md R124, R125).
-/

namespace Sys2Proof.Machine

/-- `DMEM_WORDS` of the default launch: DESIGN CHOICE (entry 1, unsafe). The source gives no size (92 D2); this is the
one the spec's own vectors are stated for (95_test_vectors.md). -/
def defaultDmemWords : Nat := 16

/-- The default `RF_INIT` is all zero (R7, R124; entry 3). -/
def defaultRfInit : Vector Word 32 := Vector.replicate 32 0#32

/-- The default `UNSUPPORTED_POLICY` is `Nop` (R7; entry 9). -/
def defaultPolicy : UnsupportedPolicy := .nop

/-- The empty image, `N = 0` (R7 allows it): no program is invented (entry 4). -/
def defaultImage : List Word := []

/-- The default launch. -/
def defaultLaunch : Launch :=
  { imem := defaultImage, dmemWords := defaultDmemWords, rfInit := defaultRfInit, policy := defaultPolicy }

end Sys2Proof.Machine
end

