-- ==== Sys2Proof/Machine/State.lean ====
section
/-!
DEFINITION. The state as plain data (10_state.md R13, R29), its launch and reset (70_reset_and_hazards.md
R121-R126), and the ways a step can stop.
-/

namespace Sys2Proof.Machine

/-- The three kinds of model fault (60_exceptions.md R105). -/
inductive FaultKind where
  | fetchOutOfRange
  | unsupportedOpcode
  | addressOutOfRange
  deriving DecidableEq, Repr

/-- The fault record (10_state.md R29; contents by kind in 60_exceptions.md R105). -/
structure FaultRecord where
  kind : FaultKind
  pc   : Word
  word : Option Word
  addr : Option Word
  deriving DecidableEq, Repr

/-- The data memory's written cells: (word index, word) pairs, indices strictly rising, no entry 0 (entry 15). -/
abbrev Memory := List (Nat × Word)

/-- The state (R13): the three stateful elements, the model's fault record (R29), and the launch parameters the cycle
reads, which no step changes (entry 2). -/
structure State where
  /-- The program counter, a word index (R20). -/
  pc        : Word
  /-- `x[0]` to `x[31]` (R14). -/
  regs      : Vector Word 32
  /-- `DMEM` (R27). -/
  dmem      : Memory
  /-- The fault record (R29). -/
  fault     : Option FaultRecord
  /-- `IMEM`, the loaded image of `N` words (R28). -/
  imem      : List Word
  /-- `DMEM_WORDS` (R27). -/
  dmemWords : Nat
  /-- `UNSUPPORTED_POLICY` (R62). -/
  policy    : UnsupportedPolicy
  deriving DecidableEq, Repr

/-- The model faults (60_exceptions.md R105), each with the state it leaves: the start-of-cycle state with the fault record
set, nothing committed (R109). The run is over. -/
inductive Fault where
  /-- Raised by a cycle whose fetch is past the image (R106), which the source calls undefined.
  Safe: the model stops where the hardware does something undefined. -/
  | fetchOutOfRange (after : State)
  /-- Raised by an unsupported word under the launch policy `Fault` (R107). Safe: the model stops, as the policy asks. -/
  | unsupportedOpcode (after : State)
  /-- Raised by LW and SW at a cell that does not exist (R108), which the source calls undefined.
  Safe: the model stops where the hardware does something undefined. -/
  | addressOutOfRange (after : State)
  /-- Raised by `step` alone, on a state whose `fault` is set: "A faulted state has no further step" (R109, UD19).
  Safe: the model stops. -/
  | halted (record : FaultRecord)
  deriving DecidableEq, Repr

/-- Why an instruction is refused. -/
inductive Refusal where
  /-- Raised by an arm of `exec` whose instruction has no meaning yet; no arm does. Safe: the model stops. -/
  | notModelled (mnemonic : String)
  deriving DecidableEq, Repr

/-- The state after a launch (R121-R125): `pc = 0`, `x = RF_INIT`, every data cell 0, no fault. -/
def State.launch (l : Launch) : State :=
  { pc := 0#32, regs := l.rfInit, dmem := [], fault := none,
    imem := l.imem, dmemWords := l.dmemWords, policy := l.policy }

/-- The machine right after reset: the default launch, with no image loaded. -/
def State.reset : State := State.launch defaultLaunch

end Sys2Proof.Machine
end

