-- ==== Sys2Proof/Machine/Ops.lean ====
section
/-!
DEFINITION. The named operations over registers, data memory, instruction store, `pc` and fault record.
-/

namespace Sys2Proof.Machine

/-! ## The data memory as data (10_state.md R27) -/

/-- What a cell nothing has written holds: the launch value 0 (20_memory.md R43, 70 R123). -/
def unlistedCell : Word := 0#32

/-- The cell at index `a`. -/
def Memory.read : Memory → Nat → Word
  | [], _ => unlistedCell
  | (k, v) :: m, a => if k = a then v else Memory.read m a

/-- The list without index `a`. -/
def Memory.erase : Memory → Nat → Memory
  | [], _ => []
  | (k, v) :: m, a => if k = a then Memory.erase m a else (k, v) :: Memory.erase m a

/-- The entry `(a, v)` before the first greater index. -/
def Memory.insert : Memory → Nat → Word → Memory
  | [], a, v => [(a, v)]
  | (k, x) :: m, a, v => if a < k then (a, v) :: (k, x) :: m else (k, x) :: Memory.insert m a v

/-- The memory with `v` at index `a`; writing what an unlisted cell reads as removes the entry. -/
def Memory.write (m : Memory) (a : Nat) (v : Word) : Memory :=
  if v = unlistedCell then m.erase a else (m.erase a).insert a v

/-- The canonical form: indices strictly rising, no entry equal to an unlisted cell. -/
def Memory.wf (m : Memory) : Bool :=
  decide (m.Pairwise fun p q => p.1 < q.1) && m.all fun p => decide (p.2 ≠ unlistedCell)

/-! ## Registers -/

/-- `x[r]`, unguarded for `r = 0` (10_state.md R15, R17). -/
def State.readReg (s : State) (r : RegIdx) : Word := s.regs[r.toNat]

/-- `x[r] <- v`, suppressed for `r = 0` (10_state.md R16, R17; 40_datapath.md R85). -/
def State.writeReg (s : State) (r : RegIdx) (v : Word) : State :=
  if r = 0#5 then s else { s with regs := s.regs.set r.toNat v }

/-! ## Data memory -/

/-- The access is to an existing cell: `u(ea) < DMEM_WORDS` (20_memory.md R34). -/
def State.dmemInRange (s : State) (ea : Word) : Bool := decide (ea.toNat < s.dmemWords)

/-- `MemRead(ea, 1)` (00_scope.md R10). -/
def State.dmemRead (s : State) (ea : Word) : Word := s.dmem.read ea.toNat

/-- `MemWrite(ea, 1, v)` (00_scope.md R10). -/
def State.dmemWrite (s : State) (ea v : Word) : State := { s with dmem := s.dmem.write ea.toNat v }

/-! ## The program counter and the instruction store -/

/-- `pc <- t`. -/
def State.setPc (s : State) (t : Word) : State := { s with pc := t }

/-- `pc <- pc + 1`, modulo 2^32 (10_state.md R21, R22). -/
def State.advance (s : State) : State := s.setPc (s.pc + 1#32)

/-- `IMemRead(pc)`, or none when `u(pc) ≥ N` (60_exceptions.md R106). -/
def State.fetch (s : State) : Option Word := s.imem[s.pc.toNat]?

/-- The image with `w` at index `n`, filled up with zero words if it is shorter. -/
def placeWord (image : List Word) (n : Nat) (w : Word) : List Word :=
  if n < image.length then image.set n w
  else image ++ List.replicate (n - image.length) 0#32 ++ [w]

/-- The state with `w` where the next step fetches, and able to take a step (entry 25). -/
def State.loadNext (s : State) (w : Word) : State :=
  { s with imem := placeWord s.imem s.pc.toNat w, fault := none }

/-! ## The ends of a cycle -/

/-- The commit of an instruction that writes one register and goes on: `x[dest] <- v` if `dest` is not 0, and
`pc <- pc + 1` (40_datapath.md R83, R86, R90). -/
def State.writeBack (s : State) (dest : RegIdx) (v : Word) : State := (s.writeReg dest v).advance

/-- Taking a model fault: nothing commits, and the state is the start-of-cycle state with the record set
(60_exceptions.md R105, R109, R110). There is no other trap entry, and no return (R112, R113). -/
def State.takeFault (s : State) (kind : FaultKind) (word addr : Option Word) : State :=
  { s with fault := some { kind := kind, pc := s.pc, word := word, addr := addr } }

/-- `raise FetchOutOfRange(pc)` (60_exceptions.md R106). -/
def State.raiseFetchOutOfRange (s : State) : Host.Outcome State Fault Refusal :=
  .fault (.fetchOutOfRange (s.takeFault .fetchOutOfRange none none))

/-- `raise UnsupportedOpcode(pc, instr)` (60_exceptions.md R107; no `addr`: DEDUCED, entry 18). -/
def State.raiseUnsupportedOpcode (s : State) (instr : Word) : Host.Outcome State Fault Refusal :=
  .fault (.unsupportedOpcode (s.takeFault .unsupportedOpcode (some instr) none))

/-- `raise AddressOutOfRange(pc, instr, ea)` (60_exceptions.md R108). -/
def State.raiseAddressOutOfRange (s : State) (instr ea : Word) : Host.Outcome State Fault Refusal :=
  .fault (.addressOutOfRange (s.takeFault .addressOutOfRange (some instr) (some ea)))

/-- The state a model fault leaves (R109); a step of an already faulted state leaves none. -/
def Fault.stateAfter : Fault → Option State
  | .fetchOutOfRange t => some t
  | .unsupportedOpcode t => some t
  | .addressOutOfRange t => some t
  | .halted _ => none

end Sys2Proof.Machine
end

