-- ==== Sys2Proof/Machine/Operands.lean ====
section
/-!
DEFINITION. The operand forms: two registers, a register and a sign-extended immediate, base plus offset.
-/

namespace Sys2Proof.Machine

/-- ALU operand `a`: always `x[rs]` (40_datapath.md R70). -/
def State.operandA (s : State) (rs : RegIdx) : Word := s.readReg rs

/-- ALU operand `b` under `alu_src = REG`: `x[rt]` (40_datapath.md R71). -/
def State.operandReg (s : State) (rt : RegIdx) : Word := s.readReg rt

/-- ALU operand `b` under `alu_src = IMM`: `imm_ext`, always sign-extended (30_encoding.md R52, 40_datapath.md R71). -/
def operandImm (imm : Half) : Word := sext32 imm

/-- The one addressing mode: `EA = x[rs] + sext_32(imm)` modulo 2^32, a word index (43_load_store.md R98). -/
def State.effectiveAddress (s : State) (rs : RegIdx) (imm : Half) : Word := aluAdd (s.operandA rs) (operandImm imm)

end Sys2Proof.Machine
end

