-- ==== Sys2Proof/Machine/AluImmediate.lean ====
section
/-!
DEFINITION. ADDI, LUI, ORI (42_alu_immediate.md R95-R97).
-/

namespace Sys2Proof.Machine

/-- ADDI (R95). -/
def execAddi (rs rt : RegIdx) (imm : Half) (s : State) : Host.Outcome State Fault Refusal :=
  .next (s.writeBack rt (aluAdd (s.operandA rs) (operandImm imm)))

/-- LUI (R96): the `rs` field has no effect. -/
def execLui (_rs rt : RegIdx) (imm : Half) (s : State) : Host.Outcome State Fault Refusal :=
  .next (s.writeBack rt (aluShl16 (operandImm imm)))

/-- ORI (R97): the immediate is sign-extended, not zero-extended. -/
def execOri (rs rt : RegIdx) (imm : Half) (s : State) : Host.Outcome State Fault Refusal :=
  .next (s.writeBack rt (aluOr (s.operandA rs) (operandImm imm)))

end Sys2Proof.Machine
end

