-- ==== Sys2Proof/Machine/AluRegister.lean ====
section
/-!
DEFINITION. ADD, AND, SLT (41_alu_register.md R92-R94).
-/

namespace Sys2Proof.Machine

/-- ADD (R92). -/
def execAdd (rs rt rd : RegIdx) (s : State) : Host.Outcome State Fault Refusal :=
  .next (s.writeBack rd (aluAdd (s.operandA rs) (s.operandReg rt)))

/-- AND (R93). -/
def execAnd (rs rt rd : RegIdx) (s : State) : Host.Outcome State Fault Refusal :=
  .next (s.writeBack rd (aluAnd (s.operandA rs) (s.operandReg rt)))

/-- SLT (R94). -/
def execSlt (rs rt rd : RegIdx) (s : State) : Host.Outcome State Fault Refusal :=
  .next (s.writeBack rd (aluSlt (s.operandA rs) (s.operandReg rt)))

end Sys2Proof.Machine
end

