-- ==== Sys2Proof/Machine/Flags.lean ====
section
/-!
DEFINITION. The only flag: the ALU's equality flag, combinational and never stored (10_state.md R23, 40_datapath.md R78),
and the sequencer's choice that reads it (40_datapath.md R86).
-/

namespace Sys2Proof.Machine

/-- `eq = (a == b)` over all 32 bits, independent of the selected operation (R78; never `result == 0`, 90 C2). -/
def eqFlag (a b : Word) : Bool := decide (a = b)

/-- `taken = branch AND eq` (R86). -/
def branchTaken (branch eq : Bool) : Bool := branch && eq

/-- `next_pc`: `pc + 1 + imm_ext` if taken, else `pc + 1`, modulo 2^32; the offset is not shifted (R86, R87). -/
def nextPc (pc : Word) (taken : Bool) (immExt : Word) : Word :=
  if taken then pc + 1#32 + immExt else pc + 1#32

end Sys2Proof.Machine
end

