-- ==== Sys2Proof/Machine/Branch.lean ====
section
/-!
DEFINITION. BEQ (44_branch.md R101) and the effect of an unsupported word (R103), which is no row of the opcode table.
-/

namespace Sys2Proof.Machine

/-- BEQ (R101). -/
def execBeq (rs rt : RegIdx) (imm : Half) (s : State) : Host.Outcome State Fault Refusal :=
  .next (s.setPc (nextPc s.pc (branchTaken true (eqFlag (s.operandA rs) (s.operandReg rt))) (operandImm imm)))

/-- A word the control unit does not match (R103, R62): a no-op under `Nop`, `UnsupportedOpcode` under `Fault`. -/
def execUnsupported (instr : Word) (s : State) : Host.Outcome State Fault Refusal :=
  match s.policy with
  | .nop => .next s.advance
  | .fault => s.raiseUnsupportedOpcode instr

/-- A cycle whose fetch is past the image (60_exceptions.md R106). -/
def execFetchPastImage (s : State) : Host.Outcome State Fault Refusal := s.raiseFetchOutOfRange

end Sys2Proof.Machine
end

