-- ==== Sys2Proof/Machine/LoadStore.lean ====
section
/-!
DEFINITION. LW and SW (43_load_store.md R98-R100). The word a fault records is the instruction's own encoding, which for
these two formats is every bit of the fetched word (entry 17).
-/

namespace Sys2Proof.Machine

/-- LW (R99): the range is checked even when `rt = 0`. -/
def execLw (rs rt : RegIdx) (imm : Half) (s : State) : Host.Outcome State Fault Refusal :=
  let ea := s.effectiveAddress rs imm
  if s.dmemInRange ea then .next (s.writeBack rt (s.dmemRead ea))
  else s.raiseAddressOutOfRange (encode (.lw rs rt imm)) ea

/-- SW (R100). -/
def execSw (rs rt : RegIdx) (imm : Half) (s : State) : Host.Outcome State Fault Refusal :=
  let ea := s.effectiveAddress rs imm
  if s.dmemInRange ea then .next (s.dmemWrite ea (s.readReg rt)).advance
  else s.raiseAddressOutOfRange (encode (.sw rs rt imm)) ea

end Sys2Proof.Machine
end

