-- ==== Sys2Proof/Machine/Step.lean ====
section
/-!
DEFINITION. One step is one clock cycle (00_scope.md R5, 70_reset_and_hazards.md R130): fetch, decode, execute.
The same cycle written as the datapath's signals is `cycle` of Machine/Datapath.lean.
-/

namespace Sys2Proof.Machine

/-- The cycle of a fetched word: its instruction's effect, or an unsupported word's. -/
def execWord (instr : Word) (s : State) : Host.Outcome State Fault Refusal :=
  match decode instr with
  | .instr i => exec i s
  | .unsupported _ _ => execUnsupported instr s

/-- One step. A faulted state has none (60_exceptions.md R109). -/
def step (s : State) : Host.Outcome State Fault Refusal :=
  match s.fault with
  | some record => .fault (.halted record)
  | none =>
    match s.fetch with
    | none => execFetchPastImage s
    | some instr => execWord instr s

/-- `s` with the table word where the next step fetches (entry 25). -/
def State.withFetchWord (s : State) (nbits w : Nat) : State := s.loadNext (tableWord nbits w)

end Sys2Proof.Machine
end

