-- ==== Sys2Proof/WellFormed.lean ====
section
/-!
DEFINITION. The well-formedness checks. `Instr` needs none: its fields have exactly the widths of the encoding.
What a user writes (an assembler form) and what a host passes (a launch) can be out of range, and are checked here.
-/

namespace Sys2Proof

/-- A register number `$n` with `n` in 0 to 31 (30_encoding.md R65). -/
def regNumberOk (n : Nat) : Bool := decide (n < 32)

/-- An immediate operand from -32768 to 65535 (30_encoding.md R66). -/
def immediateOk (v : Int) : Bool := decide (-32768 ≤ v ∧ v ≤ 65535)

/-- Every operand of an assembler form is in range (30_encoding.md R65, R66). -/
def AsmInstr.wf : AsmInstr → Bool
  | .add rd rs rt  => regNumberOk rd && regNumberOk rs && regNumberOk rt
  | .and rd rs rt  => regNumberOk rd && regNumberOk rs && regNumberOk rt
  | .slt rd rs rt  => regNumberOk rd && regNumberOk rs && regNumberOk rt
  | .addi rt rs v  => regNumberOk rt && regNumberOk rs && immediateOk v
  | .ori rt rs v   => regNumberOk rt && regNumberOk rs && immediateOk v
  | .lui rt v      => regNumberOk rt && immediateOk v
  | .lw rt v rs    => regNumberOk rt && regNumberOk rs && immediateOk v
  | .sw rt v rs    => regNumberOk rt && regNumberOk rs && immediateOk v
  | .beq rs rt v   => regNumberOk rs && regNumberOk rt && immediateOk v

/-- `1 ≤ DMEM_WORDS ≤ 2^32` (00_scope.md R7). The other launch parameters have no bound. -/
def Launch.wf (l : Launch) : Bool := decide (1 ≤ l.dmemWords ∧ l.dmemWords ≤ Config.maxDmemWords)

end Sys2Proof
end

