-- ==== Sys2Proof/Machine/Loader.lean ====
section
/-!
DEFINITION. The program-image loader at its interface (20_memory.md R36, 70_reset_and_hazards.md R127, R128).
A line is a list of characters; a malformed image gives no launch (entry 14).
-/

namespace Sys2Proof.Machine

/-- The hexadecimal digits in the order of their values, as this model prints them. -/
def upperDigits : List Char := "0123456789ABCDEF".toList

/-- The same with letters in lower case, which a line may use too (R128). -/
def lowerDigits : List Char := "0123456789abcdef".toList

/-- The value of a hexadecimal digit is its place in one of the two rows (R128). -/
def hexDigit (c : Char) : Option Nat := (upperDigits.idxOf? c).or (lowerDigits.idxOf? c)

/-- Reading a numeral, most significant digit first (R36): `value` is what the digits before these amount to. -/
def readNumeral (base : Nat) (digit : Char → Option Nat) (value : Nat) : List Char → Option Nat
  | [] => some value
  | c :: rest => (digit c).bind fun d => readNumeral base digit (value * base + d) rest

/-- One image line: exactly 8 hexadecimal digits (R128). -/
def parseLine (line : List Char) : Option Word :=
  if line.length = 8 then (readNumeral 16 hexDigit 0 line).map (BitVec.ofNat 32) else none

/-- The image: line `k` becomes `IMEM[k]`; none if any line is malformed (R127, R128). -/
def loadImage : List (List Char) → Option (List Word)
  | [] => some []
  | line :: rest =>
    match parseLine line, loadImage rest with
    | some w, some ws => some (w :: ws)
    | _, _ => none

/-- The launch a host asks for with an image text in place of `IMEM`: none for a malformed image or an ill-formed
launch (R7, R128). -/
def bootImage (lines : List (List Char)) (l : Launch) : Option State :=
  match loadImage lines with
  | some ws => if l.wf then some (State.launch { l with imem := ws }) else none
  | none => none

end Sys2Proof.Machine
end

