-- ==== Sys2Proof/Machine/Assembler.lean ====
section
/-!
DEFINITION. The assembler syntax (30_encoding.md R65-R68): text to form, form to instruction, and the disassembler.
No machine rule depends on it (92 D15; entry 20).
-/

namespace Sys2Proof.Machine

/-! ## Forms to instructions -/

/-- `$n`, for `n` in 0 to 31 (R65). -/
def assembleReg (n : Nat) : Option RegIdx := if regNumberOk n then some (BitVec.ofNat 5 n) else none

/-- An immediate in range is taken modulo 2^16 (R66). -/
def assembleImm (v : Int) : Option Half := if immediateOk v then some (BitVec.ofInt 16 v) else none

/-- An R-format form. -/
def assembleR (make : RegIdx → RegIdx → RegIdx → Instr) (rd rs rt : Nat) : Option Instr :=
  match assembleReg rd, assembleReg rs, assembleReg rt with
  | some d, some s, some t => some (make s t d)
  | _, _, _ => none

/-- An I-format form. -/
def assembleI (make : RegIdx → RegIdx → Half → Instr) (rs rt : Nat) (v : Int) : Option Instr :=
  match assembleReg rs, assembleReg rt, assembleImm v with
  | some s, some t, some i => some (make s t i)
  | _, _, _ => none

/-- The instruction of a form (R65); LUI's `rs` field is 0. -/
def assemble : AsmInstr → Option Instr
  | .add rd rs rt => assembleR .add rd rs rt
  | .and rd rs rt => assembleR .and rd rs rt
  | .slt rd rs rt => assembleR .slt rd rs rt
  | .addi rt rs v => assembleI .addi rs rt v
  | .ori rt rs v  => assembleI .ori rs rt v
  | .lui rt v     => assembleI .lui 0 rt v
  | .lw rt v rs   => assembleI .lw rs rt v
  | .sw rt v rs   => assembleI .sw rs rt v
  | .beq rs rt v  => assembleI .beq rs rt v

/-- The BEQ operand for a label: `index(label) - (pc + 1)`, in instruction words (R67). -/
def beqOperand (labelIndex pc : Nat) : Int := (labelIndex : Int) - ((pc : Int) + 1)

/-! ## Instructions to text -/

/-- The form a disassembler prints; immediates as signed decimals. -/
def instrToAsm : Instr → AsmInstr
  | .add rs rt rd   => .add rd.toNat rs.toNat rt.toNat
  | .and rs rt rd   => .and rd.toNat rs.toNat rt.toNat
  | .slt rs rt rd   => .slt rd.toNat rs.toNat rt.toNat
  | .addi rs rt imm => .addi rt.toNat rs.toNat imm.toInt
  | .ori rs rt imm  => .ori rt.toNat rs.toNat imm.toInt
  | .lui _ rt imm   => .lui rt.toNat imm.toInt
  | .lw rs rt imm   => .lw rt.toNat imm.toInt rs.toNat
  | .sw rs rt imm   => .sw rt.toNat imm.toInt rs.toNat
  | .beq rs rt imm  => .beq rs.toNat rt.toNat imm.toInt

/-- A register operand's text. -/
def regText (n : Nat) : String := "$" ++ toString n

/-- An immediate operand's text. -/
def immText (v : Int) : String := toString v

/-- `MNEMONIC $a,$b,c`. -/
def threeText (mnemonic a b c : String) : String := mnemonic ++ " " ++ a ++ "," ++ b ++ "," ++ c

/-- `MNEMONIC $rt,imm($rs)`. -/
def memoryText (mnemonic rt imm rs : String) : String := mnemonic ++ " " ++ rt ++ "," ++ imm ++ "(" ++ rs ++ ")"

/-- The text of a form (R65). -/
def asmText : AsmInstr → String
  | .add rd rs rt => threeText "ADD" (regText rd) (regText rs) (regText rt)
  | .and rd rs rt => threeText "AND" (regText rd) (regText rs) (regText rt)
  | .slt rd rs rt => threeText "SLT" (regText rd) (regText rs) (regText rt)
  | .addi rt rs v => threeText "ADDI" (regText rt) (regText rs) (immText v)
  | .ori rt rs v  => threeText "ORI" (regText rt) (regText rs) (immText v)
  | .lui rt v     => "LUI " ++ regText rt ++ "," ++ immText v
  | .lw rt v rs   => memoryText "LW" (regText rt) (immText v) (regText rs)
  | .sw rt v rs   => memoryText "SW" (regText rt) (immText v) (regText rs)
  | .beq rs rt v  => threeText "BEQ" (regText rs) (regText rt) (immText v)

/-- The upper-case hexadecimal digit of a value below 16. -/
def hexChar (n : Nat) : Char := upperDigits.getD n '0'

/-- The 8 digits of a word, first digit bits [31:28] (20_memory.md R36). -/
def hexLine (w : Word) : List Char :=
  [7, 6, 5, 4, 3, 2, 1, 0].map fun k => hexChar (w.toNat / 16 ^ k % 16)

/-- The disassembler: a supported word's form, or `.word 0xHHHHHHHH` (R65). -/
def disassemble (w : Word) : String :=
  match decode w with
  | .instr i => asmText (instrToAsm i)
  | .unsupported _ _ => ".word 0x" ++ String.ofList (hexLine w)

/-! ## Text to forms -/

/-- The parts of a text between the separators `c`; `acc` holds the part being read, in reverse. -/
def splitChars (c : Char) : List Char → List Char → List (List Char)
  | [], acc => [acc.reverse]
  | x :: xs, acc => if x = c then acc.reverse :: splitChars c xs [] else splitChars c xs (x :: acc)

/-- The value of a decimal digit: its place among the first ten. -/
def decDigit (c : Char) : Option Nat := (upperDigits.take 10).idxOf? c

/-- A number without sign: hexadecimal with the prefix `0x`, or decimal (R66). Leading zeros are allowed: DESIGN CHOICE
(entry 28), as are the digits' case and the prefix's lower case. -/
def parseMagnitude (cs : List Char) : Option Nat :=
  match cs with
  | [] => none
  | ['0', 'x'] => none
  | '0' :: 'x' :: digits => readNumeral 16 hexDigit 0 digits
  | digits => readNumeral 10 decDigit 0 digits

/-- An immediate operand's text (R66). The spec says nothing of a plus sign or of an operand left out: refusing `+5` and
the empty text is the model's choice (DESIGN CHOICE, entry 28; safe), as is reading a minus sign before `0x` (entry 20). -/
def parseImm (cs : List Char) : Option Int :=
  match cs with
  | '-' :: rest => (parseMagnitude rest).map fun n => -(n : Int)
  | rest => (parseMagnitude rest).map fun n => (n : Int)

/-- A register operand's text: `$n`, `n` in decimal (R14, R65). The spec names `$0` to `$31` and says nothing of leading
zeros: reading `$01` and `$007` as `$1` and `$7` is the model's choice (DESIGN CHOICE, entry 28; safe). -/
def parseReg (cs : List Char) : Option Nat :=
  match cs with
  | ['$'] => none
  | '$' :: digits => readNumeral 10 decDigit 0 digits
  | _ => none

/-- Three register operands. -/
def parseThreeRegs (make : Nat → Nat → Nat → AsmInstr) (a b c : List Char) : Option AsmInstr :=
  match parseReg a, parseReg b, parseReg c with
  | some x, some y, some z => some (make x y z)
  | _, _, _ => none

/-- Two register operands and an immediate. -/
def parseRegsImm (make : Nat → Nat → Int → AsmInstr) (a b c : List Char) : Option AsmInstr :=
  match parseReg a, parseReg b, parseImm c with
  | some x, some y, some v => some (make x y v)
  | _, _, _ => none

/-- A register operand and `imm($rs)`. -/
def parseRegMemory (make : Nat → Int → Nat → AsmInstr) (a mem : List Char) : Option AsmInstr :=
  match parseReg a, splitChars '(' mem [] with
  | some x, [imm, base] =>
    match parseImm imm, splitChars ')' base [] with
    | some v, [reg, []] => (parseReg reg).map fun y => make x v y
    | _, _ => none
  | _, _ => none

/-- One line of assembler text (R65): a mnemonic in capitals, one space after it and none elsewhere (entry 20). -/
def parseAsm (line : List Char) : Option AsmInstr :=
  match splitChars ' ' line [] with
  | [mnemonic, operands] =>
    match splitChars ',' operands [] with
    | [a, b, c] =>
      if mnemonic = ['A', 'D', 'D'] then parseThreeRegs .add a b c
      else if mnemonic = ['A', 'N', 'D'] then parseThreeRegs .and a b c
      else if mnemonic = ['S', 'L', 'T'] then parseThreeRegs .slt a b c
      else if mnemonic = ['A', 'D', 'D', 'I'] then parseRegsImm .addi a b c
      else if mnemonic = ['O', 'R', 'I'] then parseRegsImm .ori a b c
      else if mnemonic = ['B', 'E', 'Q'] then parseRegsImm .beq a b c
      else none
    | [a, b] =>
      if mnemonic = ['L', 'U', 'I'] then
        match parseReg a, parseImm b with
        | some x, some v => some (.lui x v)
        | _, _ => none
      else if mnemonic = ['L', 'W'] then parseRegMemory .lw a b
      else if mnemonic = ['S', 'W'] then parseRegMemory .sw a b
      else none
    | _ => none
  | _ => none

end Sys2Proof.Machine
end

