-- ==== Sys2Proof/Machine/Control.lean ====
section
/-!
DEFINITION. The ControlUnit (30_encoding.md R54-R60): from `(op, func)` to the control bundle.
-/

namespace Sys2Proof.Machine

/-- The symbolic `alu_src` values (R55), and code 0 of the zero bundle, whose reading is not in the source (R59). -/
inductive AluSrc where
  | reg
  | imm
  | code0
  deriving DecidableEq, Repr

/-- The ControlSignals bundle (10_state.md R25). -/
structure ControlSignals where
  regDst   : Bool
  branch   : Bool
  regWrite : Bool
  aluSrc   : AluSrc
  memWrite : Bool
  memToReg : Bool
  aluOp    : AluOp
  deriving DecidableEq, Repr

/-- The zero bundle (R59). -/
def zeroBundle : ControlSignals :=
  { regDst := false, branch := false, regWrite := false, aluSrc := .code0, memWrite := false, memToReg := false,
    aluOp := .code0 }

/-- The bundle of the three R-format rows, by their operation (R57). -/
def rFormatSignals (op : AluOp) : ControlSignals :=
  { regDst := true, branch := false, regWrite := true, aluSrc := .reg, memWrite := false, memToReg := false,
    aluOp := op }

/-- The bundle of the three register-immediate rows, by their operation (R57). -/
def immediateSignals (op : AluOp) : ControlSignals :=
  { regDst := false, branch := false, regWrite := true, aluSrc := .imm, memWrite := false, memToReg := false,
    aluOp := op }

/-- The bundle of LW (R57). -/
def lwSignals : ControlSignals :=
  { regDst := false, branch := false, regWrite := true, aluSrc := .imm, memWrite := false, memToReg := true,
    aluOp := .add }

/-- The bundle of SW (R57). -/
def swSignals : ControlSignals :=
  { regDst := false, branch := false, regWrite := false, aluSrc := .imm, memWrite := true, memToReg := false,
    aluOp := .add }

/-- The bundle of BEQ (R57). -/
def beqSignals : ControlSignals :=
  { regDst := false, branch := true, regWrite := false, aluSrc := .reg, memWrite := false, memToReg := false,
    aluOp := .add }

/-- The row of the control table for `(op, func)`; none when the pair is unsupported (R57, R58, R61). -/
def controlRow (op func : Code) : Option ControlSignals :=
  if op = opRFormat then
    if func = funcAdd then some (rFormatSignals .add)
    else if func = funcAnd then some (rFormatSignals .and)
    else if func = funcSlt then some (rFormatSignals .slt)
    else none
  else if op = opAddi then some (immediateSignals .add)
  else if op = opLui then some (immediateSignals .shl16)
  else if op = opOri then some (immediateSignals .or)
  else if op = opLw then some lwSignals
  else if op = opSw then some swSignals
  else if op = opBeq then some beqSignals
  else none

/-- `control(op, func)` (R58): one whole row, or the zero bundle. -/
def controlOf (op func : Code) : ControlSignals := (controlRow op func).getD zeroBundle

end Sys2Proof.Machine
end

