-- ==== Sys2Proof/Machine/Datapath.lean ====
section
/-!
DEFINITION. The cycle as the datapath computes it (40_datapath.md R69-R91): every combinational signal from the
start-of-cycle state, then one commit. It names no instruction; that it is `step` is a statement, not a definition.
-/

namespace Sys2Proof.Machine

/-- The combinational signals of one cycle (R91), which exist only within it (10_state.md R13). -/
structure Signals where
  instr     : Word
  fields    : Fields
  immExt    : Word
  control   : ControlSignals
  a         : Word
  rtVal     : Word
  b         : Word
  result    : Word
  eq        : Bool
  dest      : RegIdx
  taken     : Bool
  nextPc    : Word

/-- The `alu_src` mux (R71): `x[rt]` under `REG`, `imm_ext` under any other value; which of the two code 0 is is free. -/
def selectB (src : AluSrc) (rtVal immExt : Word) : Word :=
  match src with
  | .reg => rtVal
  | .imm => immExt
  | .code0 => if Config.zeroCodeIsReg then rtVal else immExt

/-- Fetch's word to the signals: decode, control, register read, execute, sequencer (R89). -/
def State.signals (s : State) (instr : Word) : Signals :=
  let f := decodeFields instr
  let immExt := sext32 f.imm
  let c := controlOf f.op f.func
  let a := s.readReg f.rs
  let rtVal := s.readReg f.rt
  let b := selectB c.aluSrc rtVal immExt
  let eq := eqFlag a b
  let taken := branchTaken c.branch eq
  { instr := instr, fields := f, immExt := immExt, control := c, a := a, rtVal := rtVal, b := b,
    result := alu c.aluOp a b, eq := eq, dest := if c.regDst then f.rd else f.rt,
    taken := taken, nextPc := nextPc s.pc taken immExt }

/-- `data_to_reg` (R81). -/
def State.dataToReg (s : State) (g : Signals) : Word :=
  if g.control.memToReg then s.dmemRead g.result else g.result

/-- The cycle accesses the data memory (20_memory.md R41). -/
def Signals.accessesMemory (g : Signals) : Bool := g.control.memWrite || g.control.memToReg

/-- The commit (R83, R86, R90): at most one of the two writes, and the PC. -/
def State.commit (s : State) (g : Signals) : State :=
  let written :=
    if g.control.memWrite then s.dmemWrite g.result g.rtVal
    else if g.control.regWrite then s.writeReg g.dest (s.dataToReg g)
    else s
  written.setPc g.nextPc

/-- One cycle (R89), with the range check of R81 and R99 for every load, `rt = 0` included (entry 26). -/
def cycle (s : State) : Host.Outcome State Fault Refusal :=
  match s.fault with
  | some record => .fault (.halted record)
  | none =>
    match s.fetch with
    | none => s.raiseFetchOutOfRange
    | some instr =>
      let g := s.signals instr
      if (controlRow g.fields.op g.fields.func).isNone ∧ s.policy = .fault then
        s.raiseUnsupportedOpcode instr
      else if g.accessesMemory ∧ s.dmemInRange g.result = false then
        s.raiseAddressOutOfRange instr g.result
      else .next (s.commit g)

end Sys2Proof.Machine
end

