-- ==== Sys2Proof/Machine/Run.lean ====
section
/-!
DEFINITION. Runs and what the host sees of them (70_reset_and_hazards.md R131, R132).
-/

namespace Sys2Proof.Machine

/-- What the host observes: `(pc, x, DMEM, fault)` (R131, R132). Reading it changes nothing. -/
structure Observation where
  pc    : Word
  regs  : Vector Word 32
  dmem  : Memory
  fault : Option FaultRecord
  deriving DecidableEq, Repr

/-- The inspection interface (R131). -/
def State.observe (s : State) : Observation := { pc := s.pc, regs := s.regs, dmem := s.dmem, fault := s.fault }

/-- `k` steps, ending early at the first model fault, whose state it keeps (R132). -/
def State.run : Nat → State → State
  | 0, s => s
  | k + 1, s =>
    match step s with
    | .next t => State.run k t
    | .fault f => f.stateAfter.getD s
    | .refused _ => s

/-- A run: a launch and a step count; its observation is the last state's (R132). -/
def runLaunch (l : Launch) (k : Nat) : Observation := ((State.launch l).run k).observe

end Sys2Proof.Machine
end

