-- ==== Sys2Proof/Safety.lean ====
section
/-!
DEFINITION. The terms claims are stated in: what a cycle leaves the same, what a fault record must say, the machine's
invariant, and what counts as a fault-free run (70_reset_and_hazards.md R129, R132).
-/

namespace Sys2Proof.Machine

/-! ## What stays the same -/

/-- The launch parameters are the same (10_state.md R13, R28). -/
structure State.SameLaunch (s t : State) : Prop where
  imem      : t.imem = s.imem
  dmemWords : t.dmemWords = s.dmemWords
  policy    : t.policy = s.policy

/-- Every register reads the same. -/
def State.SameRegs (s t : State) : Prop := ∀ r : RegIdx, t.readReg r = s.readReg r

/-- Every data-memory cell reads the same. -/
def State.SameMemory (s t : State) : Prop := ∀ a : Nat, t.dmem.read a = s.dmem.read a

/-- `t` is `s` after a cycle that writes `v` to register `d`: `x[0]` is never written, every other register, every
memory cell, the fault record and the launch parameters are the same, and `pc` advances by 1. -/
structure State.WroteReg (s t : State) (d : RegIdx) (v : Word) : Prop where
  pc        : t.pc = s.pc + 1#32
  written   : d ≠ 0#5 → t.readReg d = v
  otherRegs : ∀ r : RegIdx, r = 0#5 ∨ r ≠ d → t.readReg r = s.readReg r
  memory    : s.SameMemory t
  fault     : t.fault = s.fault
  launch    : s.SameLaunch t

/-- `t` is `s` after a cycle that stores `v` in cell `a`: every other cell, every register, the fault record and the
launch parameters are the same, and `pc` advances by 1. -/
structure State.StoredCell (s t : State) (a : Nat) (v : Word) : Prop where
  pc         : t.pc = s.pc + 1#32
  stored     : t.dmem.read a = v
  otherCells : ∀ b : Nat, b ≠ a → t.dmem.read b = s.dmem.read b
  regs       : s.SameRegs t
  fault      : t.fault = s.fault
  launch     : s.SameLaunch t

/-- `t` is `s` after a cycle that changes nothing but `pc`, which becomes `p`. -/
structure State.OnlyPc (s t : State) (p : Word) : Prop where
  pc     : t.pc = p
  regs   : s.SameRegs t
  memory : s.SameMemory t
  fault  : t.fault = s.fault
  launch : s.SameLaunch t

/-! ## Faults and the invariant -/

/-- The word is none of the nine instructions (30_encoding.md R61). -/
def isUnsupported (w : Word) : Bool :=
  match decode w with
  | .instr _ => false
  | .unsupported _ _ => true

/-- The data address a word's cycle accesses, if it accesses any (20_memory.md R41). -/
def State.dataAddress (s : State) (w : Word) : Option Word :=
  match decode w with
  | .instr (.lw rs _ imm) => some (s.effectiveAddress rs imm)
  | .instr (.sw rs _ imm) => some (s.effectiveAddress rs imm)
  | _ => none

/-- The word's cycle accesses a cell that does not exist (20_memory.md R34). -/
def State.accessOutOfRange (s : State) (w : Word) : Bool :=
  match s.dataAddress w with
  | some ea => !s.dmemInRange ea
  | none => false

/-- The word's cycle is a model fault under the launch's policy (60_exceptions.md R107, R108). -/
def State.wordFaults (s : State) (w : Word) : Bool :=
  (isUnsupported w && decide (s.policy = .fault)) || s.accessOutOfRange w

/-- A fault record fits the state it stands in: the contents of 60_exceptions.md R105, the `pc` of the faulting
instruction (R110), and the cause. -/
def FaultRecord.justified (r : FaultRecord) (s : State) : Bool :=
  decide (r.pc = s.pc) &&
  match r.kind, s.fetch with
  | .fetchOutOfRange, none => decide (r.word = none ∧ r.addr = none)
  | .unsupportedOpcode, some w =>
    isUnsupported w && decide (s.policy = .fault ∧ r.word = some w ∧ r.addr = none)
  | .addressOutOfRange, some w =>
    s.accessOutOfRange w && decide (r.word = some w ∧ r.addr = s.dataAddress w)
  | _, _ => false

/-- The invariant: the memory is canonical, it holds no cell that does not exist, `DMEM_WORDS` is legal, and a set
fault record is justified. -/
def State.inv (s : State) : Bool :=
  s.dmem.wf && (s.dmem.all fun p => decide (p.1 < s.dmemWords)) &&
  decide (1 ≤ s.dmemWords ∧ s.dmemWords ≤ Config.maxDmemWords) &&
  match s.fault with
  | none => true
  | some r => r.justified s

/-- No model fault in the first `k` steps (70_reset_and_hazards.md R132: otherwise it is a faulted run). -/
def State.SafeFor (s : State) (k : Nat) : Prop := (s.run k).fault = none

/-- The state a cycle leaves: the next state, or the state its model fault leaves (60_exceptions.md R109). -/
def leaves (o : Host.Outcome State Fault Refusal) (t : State) : Prop :=
  match o with
  | .next t' => t' = t
  | .fault f => f.stateAfter = some t
  | .refused _ => False

end Sys2Proof.Machine
end

