-- ==== Sys2Proof/Certificates/Slice0/Obligations.lean ====
section
/-!
DEFINITION. The statements for the provers. Each docstring names the rules of spec/ it formalises.
-/

open Sys2Proof Sys2Proof.Machine

/-! ## Launch and reset -/

/-- R122, R123. Every launch starts at instruction index 0, which is where the image's first word is, with every
data-memory cell 0; the reset state is one of these launches. -/
def Obligations.LaunchStartsAtZeroWithZeroMemory : Prop :=
  (∀ l : Launch, (State.launch l).pc = 0#32 ∧
    (∀ (w : Word) (ws : List Word), l.imem = w :: ws → (State.launch l).fetch = some w) ∧
    ∀ a : Nat, (State.launch l).dmem.read a = 0#32) ∧
  State.reset.pc = 0#32 ∧ ∀ a : Nat, State.reset.dmem.read a = 0#32

/-- 70_reset_and_hazards.md section 1. Every launch holds its parameters; the reset state's registers are all 0, its
policy is `Nop` and its image is empty (the model's choices of launch: entries 3, 4 and 9). -/
def Obligations.LaunchHoldsItsParameters : Prop :=
  (∀ (l : Launch) (r : RegIdx), (State.launch l).readReg r = l.rfInit[r.toNat]) ∧
  (∀ l : Launch, (State.launch l).fault = none ∧ (State.launch l).imem = l.imem ∧
    (State.launch l).dmemWords = l.dmemWords ∧ (State.launch l).policy = l.policy) ∧
  (∀ r : RegIdx, State.reset.readReg r = 0#32) ∧ State.reset.fault = none ∧
  State.reset.imem = [] ∧ State.reset.policy = .nop

/-- Derived from 10_state.md R27, R29. Every well-formed launch, the reset state among them, meets the invariant. The
model's choices in it: the invariant's canonical memory (entry 15), its `addr` of an `UnsupportedOpcode` record (entry 18,
held by no launch), and the size `State.reset` has (entry 1). -/
def Obligations.LaunchMeetsTheInvariant : Prop :=
  (∀ l : Launch, l.wf = true → (State.launch l).inv = true) ∧ State.reset.inv = true

/-! ## Encoding -/

/-- 95_test_vectors.md V-DEC and sections 1 to 3: words written out in the spec decode to the instructions it names. -/
def Obligations.SpecWordsDecode : Prop :=
  decode 0x00221820#32 = .instr (.add 1 2 3) ∧ decode 0x00222024#32 = .instr (.and 1 2 4) ∧
  decode 0x0041182A#32 = .instr (.slt 2 1 3) ∧ decode 0x20010005#32 = .instr (.addi 0 1 5) ∧
  decode 0x3CA11234#32 = .instr (.lui 5 1 0x1234) ∧ decode 0x34215678#32 = .instr (.ori 1 1 0x5678) ∧
  decode 0x8C41FFFF#32 = .instr (.lw 2 1 0xFFFF) ∧ decode 0xAC020010#32 = .instr (.sw 0 2 0x10) ∧
  decode 0x10220005#32 = .instr (.beq 1 2 5) ∧ decode 0x3006FFFF#32 = .unsupported 0x0C 0x3F

/-- Decoding the encoding of any instruction gives it back, with every operand at every value. -/
def Obligations.DecodeOfEncodeIsTheInstruction : Prop := ∀ i : Instr, decode (encode i) = .instr i

/-- The other direction: the word of what a word decodes to is that word, but for bits [10:6] of an R-format word,
where zeros are the model's choice (entry 23): no rule reads those bits (R51). -/
def Obligations.EncodeOfDecodeIsTheWord : Prop :=
  ∀ (w : Word) (i : Instr), decode w = .instr i →
    encode i = if fieldOp w = 0x00#6 then w &&& 0xFFFFF83F#32 else w

/-- Derived from R51, itself the spec's inference. An R-format word executes the same whatever bits [10:6] hold, the spec's own example among them. -/
def Obligations.UnusedRFormatBitsAreIgnored : Prop :=
  (∀ w : Word, fieldOp w = 0x00#6 → decode w = decode (w &&& 0xFFFFF83F#32)) ∧
  (∀ (w : Word) (i : Instr) (s : State), fieldOp w = 0x00#6 → decode w = .instr i →
    execWord w s = execWord (w &&& 0xFFFFF83F#32) s) ∧
  decode 0x002218A0#32 = .instr (.add 1 2 3) ∧ decode 0x002218A0#32 = decode 0x00221820#32

/-- INDEX.md. No word matches two rows of the opcode table; a word decodes to an instruction exactly when it matches that
instruction's row, and to no instruction when it matches none. -/
def Obligations.WordMatchesAtMostOneRow : Prop :=
  (∀ (w : Word) (p q : OpRow), p ∈ opcodeTable → q ∈ opcodeTable → p.Matches w → q.Matches w → p = q) ∧
  (∀ (w : Word) (i : Instr), decode w = .instr i → rowOf i ∈ opcodeTable ∧ (rowOf i).Matches w) ∧
  (∀ w : Word, (∃ op func, decode w = .unsupported op func) ↔ ∀ p ∈ opcodeTable, ¬ p.Matches w)

/-- 30_encoding.md section 4 (R61). The opcode map: which `(op, func)` pairs are unsupported, and that the control unit
rejects exactly the words the decoder rejects. -/
def Obligations.UnsupportedPairsAreTheRest : Prop :=
  ∀ w : Word,
    ((∃ op func, decode w = .unsupported op func) ↔ controlRow (fieldOp w) (fieldFunc w) = none) ∧
    ((∃ op func, decode w = .unsupported op func) ↔
      if fieldOp w = 0x00#6 then
        fieldFunc w ≠ 0x20#6 ∧ fieldFunc w ≠ 0x24#6 ∧ fieldFunc w ≠ 0x2A#6
      else fieldOp w ≠ 0x04#6 ∧ fieldOp w ≠ 0x08#6 ∧ fieldOp w ≠ 0x0D#6 ∧ fieldOp w ≠ 0x0F#6 ∧
        fieldOp w ≠ 0x23#6 ∧ fieldOp w ≠ 0x2B#6)

/-- Derived from R60, itself the spec's inference from the control table. The invariants of the control table, for every pair `(op, func)`. -/
def Obligations.ControlTableKeepsItsPromises : Prop :=
  ∀ op func : Code,
    ¬ ((controlOf op func).memWrite = true ∧ (controlOf op func).regWrite = true) ∧
    ((controlOf op func).branch = true → op = 0x04#6) ∧
    ((controlOf op func).memToReg = true → op = 0x23#6) ∧
    ((controlOf op func).memWrite = true → op = 0x2B#6) ∧
    ((controlOf op func).regDst = true → op = 0x00#6 ∧ (func = 0x20#6 ∨ func = 0x24#6 ∨ func = 0x2A#6)) ∧
    ((controlOf op func).aluSrc = .reg ↔
      op = 0x00#6 ∧ (func = 0x20#6 ∨ func = 0x24#6 ∨ func = 0x2A#6) ∨ op = 0x04#6)

/-! ## The nine instructions. Each says the result and the frame for every operand and state, which words are the
instruction, its control row, and its assembler syntax. -/

/-- R92. ADD. -/
def Obligations.AddWritesTheSum : Prop :=
  (∀ (rs rt rd : RegIdx) (s : State), ∃ t, exec (.add rs rt rd) s = .next t ∧
    s.WroteReg t rd (s.readReg rs + s.readReg rt)) ∧
  (∀ w : Word, w &&& 0xFC00003F#32 = 0x00000020#32 ↔
    decode w = .instr (.add (fieldRs w) (fieldRt w) (fieldRd w))) ∧
  controlRow 0x00#6 0x20#6 = some
    { regDst := true, branch := false, regWrite := true, aluSrc := .reg,
      memWrite := false, memToReg := false, aluOp := .add } ∧
  ∀ rd rs rt : RegIdx, assemble (.add rd.toNat rs.toNat rt.toNat) = some (.add rs rt rd)

/-- R93. AND. -/
def Obligations.AndWritesTheConjunction : Prop :=
  (∀ (rs rt rd : RegIdx) (s : State), ∃ t, exec (.and rs rt rd) s = .next t ∧
    s.WroteReg t rd (s.readReg rs &&& s.readReg rt)) ∧
  (∀ w : Word, w &&& 0xFC00003F#32 = 0x00000024#32 ↔
    decode w = .instr (.and (fieldRs w) (fieldRt w) (fieldRd w))) ∧
  controlRow 0x00#6 0x24#6 = some
    { regDst := true, branch := false, regWrite := true, aluSrc := .reg,
      memWrite := false, memToReg := false, aluOp := .and } ∧
  ∀ rd rs rt : RegIdx, assemble (.and rd.toNat rs.toNat rt.toNat) = some (.and rs rt rd)

/-- R94. SLT, with its signed comparison. -/
def Obligations.SltWritesTheSignedComparison : Prop :=
  (∀ (rs rt rd : RegIdx) (s : State), ∃ t, exec (.slt rs rt rd) s = .next t ∧
    s.WroteReg t rd (if (s.readReg rs).toInt < (s.readReg rt).toInt then 0x00000001#32 else 0x00000000#32)) ∧
  (∀ w : Word, w &&& 0xFC00003F#32 = 0x0000002A#32 ↔
    decode w = .instr (.slt (fieldRs w) (fieldRt w) (fieldRd w))) ∧
  controlRow 0x00#6 0x2A#6 = some
    { regDst := true, branch := false, regWrite := true, aluSrc := .reg,
      memWrite := false, memToReg := false, aluOp := .slt } ∧
  ∀ rd rs rt : RegIdx, assemble (.slt rd.toNat rs.toNat rt.toNat) = some (.slt rs rt rd)

/-- R95. ADDI. -/
def Obligations.AddiAddsTheSignExtendedImmediate : Prop :=
  (∀ (rs rt : RegIdx) (imm : Half) (s : State), ∃ t, exec (.addi rs rt imm) s = .next t ∧
    s.WroteReg t rt (s.readReg rs + imm.signExtend 32)) ∧
  (∀ w : Word, w &&& 0xFC000000#32 = 0x20000000#32 ↔
    decode w = .instr (.addi (fieldRs w) (fieldRt w) (fieldImm w))) ∧
  (∀ func : Code, controlRow 0x08#6 func = some
    { regDst := false, branch := false, regWrite := true,
      aluSrc := .imm, memWrite := false, memToReg := false, aluOp := .add }) ∧
  ∀ (rt rs : RegIdx) (v : Int), -32768 ≤ v → v ≤ 65535 →
    assemble (.addi rt.toNat rs.toNat v) = some (.addi rs rt (BitVec.ofInt 16 v))

/-- R96. LUI: the immediate in the upper half-word, zeros below, whatever the `rs` field. -/
def Obligations.LuiPlacesTheUpperHalf : Prop :=
  (∀ (rs rt : RegIdx) (imm : Half) (s : State), ∃ t, exec (.lui rs rt imm) s = .next t ∧
    s.WroteReg t rt (imm ++ 0#16)) ∧
  (∀ w : Word, w &&& 0xFC000000#32 = 0x3C000000#32 ↔
    decode w = .instr (.lui (fieldRs w) (fieldRt w) (fieldImm w))) ∧
  (∀ func : Code, controlRow 0x0F#6 func = some
    { regDst := false, branch := false, regWrite := true,
      aluSrc := .imm, memWrite := false, memToReg := false, aluOp := .shl16 }) ∧
  ∀ (rt : RegIdx) (v : Int), -32768 ≤ v → v ≤ 65535 →
    assemble (.lui rt.toNat v) = some (.lui 0 rt (BitVec.ofInt 16 v))

/-- R97. ORI, with a sign-extended immediate: a set sign bit makes the upper half all ones, a clear one passes it through. -/
def Obligations.OriOrsTheSignExtendedImmediate : Prop :=
  (∀ (rs rt : RegIdx) (imm : Half) (s : State), ∃ t, exec (.ori rs rt imm) s = .next t ∧
    s.WroteReg t rt (s.readReg rs ||| imm.signExtend 32) ∧
    (rt ≠ 0#5 → imm.msb = true → (t.readReg rt).extractLsb' 16 16 = 0xFFFF#16) ∧
    (rt ≠ 0#5 → imm.msb = false → (t.readReg rt).extractLsb' 16 16 = (s.readReg rs).extractLsb' 16 16)) ∧
  (∀ w : Word, w &&& 0xFC000000#32 = 0x34000000#32 ↔
    decode w = .instr (.ori (fieldRs w) (fieldRt w) (fieldImm w))) ∧
  (∀ func : Code, controlRow 0x0D#6 func = some
    { regDst := false, branch := false, regWrite := true,
      aluSrc := .imm, memWrite := false, memToReg := false, aluOp := .or }) ∧
  ∀ (rt rs : RegIdx) (v : Int), -32768 ≤ v → v ≤ 65535 →
    assemble (.ori rt.toNat rs.toNat v) = some (.ori rs rt (BitVec.ofInt 16 v))

/-- R98, R99. LW: in range it loads the whole word; out of range, with `rt = 0` too, it takes `AddressOutOfRange`
and commits nothing. -/
def Obligations.LwLoadsTheWordOrFaults : Prop :=
  (∀ (s : State) (rs : RegIdx) (imm : Half), s.effectiveAddress rs imm = s.readReg rs + imm.signExtend 32) ∧
  (∀ (rs rt : RegIdx) (imm : Half) (s : State), (s.effectiveAddress rs imm).toNat < s.dmemWords →
    ∃ t, exec (.lw rs rt imm) s = .next t ∧
      s.WroteReg t rt (s.dmem.read (s.effectiveAddress rs imm).toNat)) ∧
  (∀ (w : Word) (rs rt : RegIdx) (imm : Half) (s : State), decode w = .instr (.lw rs rt imm) →
    s.dmemWords ≤ (s.effectiveAddress rs imm).toNat →
    exec (.lw rs rt imm) s = .fault (.addressOutOfRange { s with fault := some (.mk .addressOutOfRange s.pc
      (some w) (some (s.effectiveAddress rs imm))) })) ∧
  (∀ w : Word, w &&& 0xFC000000#32 = 0x8C000000#32 ↔
    decode w = .instr (.lw (fieldRs w) (fieldRt w) (fieldImm w))) ∧
  (∀ func : Code, controlRow 0x23#6 func = some
    { regDst := false, branch := false, regWrite := true,
      aluSrc := .imm, memWrite := false, memToReg := true, aluOp := .add }) ∧
  ∀ (rt rs : RegIdx) (v : Int), -32768 ≤ v → v ≤ 65535 →
    assemble (.lw rt.toNat v rs.toNat) = some (.lw rs rt (BitVec.ofInt 16 v))

/-- R98, R100. SW: in range it stores `x[rt]` in the cell at the effective address and nothing else; out of range it takes
`AddressOutOfRange` and commits nothing. -/
def Obligations.SwStoresTheWordOrFaults : Prop :=
  (∀ (s : State) (rs : RegIdx) (imm : Half), s.effectiveAddress rs imm = s.readReg rs + imm.signExtend 32) ∧
  (∀ (rs rt : RegIdx) (imm : Half) (s : State), (s.effectiveAddress rs imm).toNat < s.dmemWords →
    ∃ t, exec (.sw rs rt imm) s = .next t ∧
      s.StoredCell t (s.effectiveAddress rs imm).toNat (s.readReg rt)) ∧
  (∀ (w : Word) (rs rt : RegIdx) (imm : Half) (s : State), decode w = .instr (.sw rs rt imm) →
    s.dmemWords ≤ (s.effectiveAddress rs imm).toNat →
    exec (.sw rs rt imm) s = .fault (.addressOutOfRange { s with fault := some (.mk .addressOutOfRange s.pc
      (some w) (some (s.effectiveAddress rs imm))) })) ∧
  (∀ w : Word, w &&& 0xFC000000#32 = 0xAC000000#32 ↔
    decode w = .instr (.sw (fieldRs w) (fieldRt w) (fieldImm w))) ∧
  (∀ func : Code, controlRow 0x2B#6 func = some
    { regDst := false, branch := false, regWrite := false,
      aluSrc := .imm, memWrite := true, memToReg := false, aluOp := .add }) ∧
  ∀ (rt rs : RegIdx) (v : Int), -32768 ≤ v → v ≤ 65535 →
    assemble (.sw rt.toNat v rs.toNat) = some (.sw rs rt (BitVec.ofInt 16 v))

/-- R101. BEQ: only `pc` changes, to `pc + 1 + sext(imm)` (unshifted, modulo 2^32) when the operands are equal, else to
`pc + 1`. -/
def Obligations.BeqBranchesOnEqualOperands : Prop :=
  (∀ (rs rt : RegIdx) (imm : Half) (s : State), ∃ t, exec (.beq rs rt imm) s = .next t ∧
    s.OnlyPc t (if s.readReg rs = s.readReg rt then s.pc + 1#32 + imm.signExtend 32 else s.pc + 1#32)) ∧
  (∀ w : Word, w &&& 0xFC000000#32 = 0x10000000#32 ↔
    decode w = .instr (.beq (fieldRs w) (fieldRt w) (fieldImm w))) ∧
  (∀ func : Code, controlRow 0x04#6 func = some
    { regDst := false, branch := true, regWrite := false,
      aluSrc := .reg, memWrite := false, memToReg := false, aluOp := .add }) ∧
  ∀ (rs rt : RegIdx) (v : Int), -32768 ≤ v → v ≤ 65535 →
    assemble (.beq rs.toNat rt.toNat v) = some (.beq rs rt (BitVec.ofInt 16 v))

/-! ## The step -/

/-- 40_datapath.md section 4 (R89). A fault-free state's step is the effect of the instruction its fetched word decodes to
(nothing is added around `exec`: the meaning moves the `pc`), or the effect of an unsupported word. -/
def Obligations.StepRunsTheDecodedInstruction : Prop :=
  (∀ (s : State) (w : Word) (i : Instr), s.fault = none → s.fetch = some w → decode w = .instr i →
    step s = exec i s) ∧
  (∀ (s : State) (w : Word) (op func : Code), s.fault = none → s.fetch = some w →
    decode w = .unsupported op func → step s = execUnsupported w s) ∧
  ∀ (s : State), s.fetch = s.imem[s.pc.toNat]?

/-- R103, R107. An unsupported word: under `Nop` it changes nothing but `pc`, which advances by 1; under `Fault` it takes
`UnsupportedOpcode(pc, instr)` and commits nothing (the rules name no `addr` for it). -/
def Obligations.UnsupportedWordFollowsThePolicy : Prop :=
  (∀ (s : State) (w : Word), s.fault = none → s.fetch = some w →
    controlRow (fieldOp w) (fieldFunc w) = none → s.policy = .nop →
    controlOf (fieldOp w) (fieldFunc w) = zeroBundle ∧ ∃ t, step s = .next t ∧ s.OnlyPc t (s.pc + 1#32)) ∧
  (∀ (s : State) (w : Word), s.fault = none → s.fetch = some w →
    controlRow (fieldOp w) (fieldFunc w) = none → s.policy = .fault →
    ∃ addr, step s =
      .fault (.unsupportedOpcode { s with fault := some (.mk .unsupportedOpcode s.pc (some w) addr) }))

/-- R106. A fetch past the image takes `FetchOutOfRange(pc)`; a state that fetches in range comes to one that does not only
by a taken BEQ or by running past the last instruction. -/
def Obligations.FetchPastTheImageFaults : Prop :=
  (∀ s : State, s.fault = none → s.imem.length ≤ s.pc.toNat →
    step s = .fault (.fetchOutOfRange { s with fault := some (.mk .fetchOutOfRange s.pc none none) })) ∧
  (∀ s t : State, step s = .next t → s.pc.toNat < s.imem.length → t.imem.length ≤ t.pc.toNat →
    (∃ (w : Word) (rs rt : RegIdx) (imm : Half), s.fetch = some w ∧ decode w = .instr (.beq rs rt imm) ∧
      s.readReg rs = s.readReg rt ∧ t.pc = s.pc + 1#32 + imm.signExtend 32) ∨
    (t.pc = s.pc + 1#32 ∧ t.pc.toNat = s.imem.length))

/-- R34, R108. An LW or SW whose address is not below `DMEM_WORDS` takes `AddressOutOfRange(pc, instr, result)`; a step
takes that fault only then, so a cycle that does not access memory never faults on its ALU result. -/
def Obligations.OutOfRangeAccessFaults : Prop :=
  (∀ (s : State) (w : Word) (i : Instr) (rs rt : RegIdx) (imm : Half), s.fault = none → s.fetch = some w →
    decode w = .instr i → (i = .lw rs rt imm ∨ i = .sw rs rt imm) →
    s.dmemWords ≤ (s.readReg rs + imm.signExtend 32).toNat →
    step s = .fault (.addressOutOfRange { s with fault := some (.mk .addressOutOfRange s.pc (some w)
      (some (s.readReg rs + imm.signExtend 32))) })) ∧
  (∀ s t : State, step s = .fault (.addressOutOfRange t) →
    ∃ (w : Word) (i : Instr) (rs rt : RegIdx) (imm : Half), s.fetch = some w ∧ decode w = .instr i ∧
      (i = .lw rs rt imm ∨ i = .sw rs rt imm) ∧ s.dmemWords ≤ (s.readReg rs + imm.signExtend 32).toNat)

/-- R109 (and R110, which the spec derives from it). A model fault commits nothing: the state it leaves is the start-of-cycle state with the record set, and the
record's `pc` is the faulting instruction's. A faulted state has no further step, and no cycle that goes on sets the
record. -/
def Obligations.ModelFaultCommitsNothing : Prop :=
  (∀ (s t : State) (f : Fault), step s = .fault f → f.stateAfter = some t →
    s.fault = none ∧ ∃ r : FaultRecord, t = { s with fault := some r } ∧ r.pc = s.pc) ∧
  (∀ (s : State) (r : FaultRecord), s.fault = some r → ∀ t, ¬ leaves (step s) t) ∧
  (∀ s t : State, step s = .next t → s.fault = none ∧ t.fault = none)

/-- R105, R111. Which model fault a step takes, in the order fetch, unsupported, address, and what each records; at most
one applies. -/
def Obligations.FaultOrderAndContents : Prop :=
  (∀ s : State, s.fault = none →
    ((∃ t, step s = .fault (.fetchOutOfRange t)) ↔ s.fetch = none) ∧
    ((∃ t, step s = .fault (.unsupportedOpcode t)) ↔
      ∃ w, s.fetch = some w ∧ isUnsupported w = true ∧ s.policy = .fault) ∧
    ((∃ t, step s = .fault (.addressOutOfRange t)) ↔ ∃ w, s.fetch = some w ∧ s.accessOutOfRange w = true)) ∧
  (∀ s t : State, step s = .fault (.fetchOutOfRange t) →
    t.fault = some ⟨.fetchOutOfRange, s.pc, none, none⟩) ∧
  (∀ s t : State, step s = .fault (.unsupportedOpcode t) →
    ∃ addr, t.fault = some ⟨.unsupportedOpcode, s.pc, s.fetch, addr⟩) ∧
  (∀ s t : State, step s = .fault (.addressOutOfRange t) →
    ∃ w ea, s.fetch = some w ∧ s.dataAddress w = some ea ∧
      t.fault = some ⟨.addressOutOfRange, s.pc, some w, some ea⟩) ∧
  (∀ (s : State) (w : Word), isUnsupported w = true → s.accessOutOfRange w = false)

/-- Derived from 60_exceptions.md section 1 (R104) and 70_reset_and_hazards.md R129: nothing is ever refused, only LW and SW
can stop on their own account, and a step goes on exactly when no model fault applies. -/
def Obligations.CyclesGoOnExactlyWithoutFaults : Prop :=
  (∀ (i : Instr) (s : State), (∃ t, exec i s = .next t) ∨
    ((∃ rs rt imm, i = .lw rs rt imm ∨ i = .sw rs rt imm) ∧ ∃ t, exec i s = .fault (.addressOutOfRange t))) ∧
  (∀ (s : State) (r : Refusal), step s ≠ .refused r) ∧
  (∀ s : State, (∃ t, step s = .next t) ↔ s.fault = none ∧ ∃ w, s.fetch = some w ∧ s.wordFaults w = false)

/-- R21. The PC changes once a cycle: a taken BEQ sets it to `pc + 1 + imm_ext`, every other cycle that goes on advances it
by 1. -/
def Obligations.OnlyATakenBranchRedirects : Prop :=
  ∀ (s t : State) (w : Word), step s = .next t → s.fetch = some w →
    (∀ (rs rt : RegIdx) (imm : Half), decode w = .instr (.beq rs rt imm) →
      t.pc = if s.readReg rs = s.readReg rt then s.pc + 1#32 + imm.signExtend 32 else s.pc + 1#32) ∧
    ((∀ (rs rt : RegIdx) (imm : Half), decode w ≠ .instr (.beq rs rt imm)) → t.pc = s.pc + 1#32)

/-- R41. Only SW changes the data memory, and only LW's outcome depends on it: any other word's cycle does the same to
everything else whatever the memory holds. -/
def Obligations.OnlyLoadsReadAndOnlyStoresWriteMemory : Prop :=
  (∀ (s t : State) (a : Nat), leaves (step s) t → t.dmem.read a ≠ s.dmem.read a →
    ∃ (w : Word) (rs rt : RegIdx) (imm : Half), s.fetch = some w ∧ decode w = .instr (.sw rs rt imm) ∧
      a = (s.effectiveAddress rs imm).toNat) ∧
  (∀ (w : Word) (s t : State) (m : Memory), (∀ rs rt imm, decode w ≠ .instr (.lw rs rt imm)) →
    leaves (execWord w s) t →
    ∃ t', leaves (execWord w { s with dmem := m }) t' ∧ t'.regs = t.regs ∧ t'.pc = t.pc ∧ t'.fault = t.fault)

/-- Derived from 20_memory.md section 5 (R43): the round trip. A load from the cell just stored returns the stored value,
and a load from any other cell what it returned before the store. -/
def Obligations.LoadAfterStoreReturnsTheValue : Prop :=
  ∀ (rs rt rs' rt' : RegIdx) (imm imm' : Half) (s t : State),
    exec (.sw rs rt imm) s = .next t → rt' ≠ 0#5 → (t.effectiveAddress rs' imm').toNat < t.dmemWords →
    ∃ u, exec (.lw rs' rt' imm') t = .next u ∧
      u.readReg rt' = if t.effectiveAddress rs' imm' = s.effectiveAddress rs imm then s.readReg rt
        else s.dmemRead (t.effectiveAddress rs' imm')

/-- Derived from 40_datapath.md sections 2 and 4 (R83, R91): a cycle writes a register or a memory cell, never both, and at
most one of either. -/
def Obligations.AtMostOneWriteACycle : Prop :=
  ∀ s t : State, leaves (step s) t →
    (s.SameRegs t ∨ s.SameMemory t) ∧
    (∀ r r' : RegIdx, t.readReg r ≠ s.readReg r → t.readReg r' ≠ s.readReg r' → r = r') ∧
    (∀ a a' : Nat, t.dmem.read a ≠ s.dmem.read a → t.dmem.read a' ≠ s.dmem.read a' → a = a')

/-- Derived (entry 15): the canonical form is unique, so equal memories are equal data. -/
def Obligations.CanonicalMemoriesAreEqualData : Prop :=
  ∀ m n : Memory, m.wf = true → n.wf = true → (∀ a : Nat, m.read a = n.read a) → m = n

/-! ## Whole-machine results -/

/-- Derived from 40_datapath.md section 4: the step by instructions is the datapath's cycle, for every state, whatever the
free values of the zero bundle are (`Config.zeroCodeResult`, `Config.zeroCodeIsReg`: the model's, entry 10). For a load
with `rt = 0` both follow R81 and R99 (entry 26). -/
def Obligations.DatapathCycleIsTheStep : Prop := ∀ s : State, cycle s = step s

/-- Derived from 10_state.md R27, R29 and 60_exceptions.md R105, R110: every cycle keeps the invariant, the state a model
fault leaves included, whose record is then justified. The model's choices in the invariant: the canonical memory (entry 15)
and `addr = none` in an `UnsupportedOpcode` record (entry 18). -/
def Obligations.StepKeepsTheInvariant : Prop :=
  ∀ s t : State, s.inv = true → leaves (step s) t → t.inv = true

/-- Derived from the same, and resting on entries 15 and 18 in the same way: every state of every run of every well-formed
launch meets the invariant. -/
def Obligations.RunsMeetTheInvariant : Prop :=
  ∀ (l : Launch) (k : Nat), l.wf = true → ((State.launch l).run k).inv = true

/-- R17. A write to register 0 is suppressed, a read of it is unguarded, every step keeps it, and so `x[0]` holds
`RF_INIT[0]` for the whole of every run; it is 0 under the default launch. -/
def Obligations.RegisterZeroKeepsItsLaunchValue : Prop :=
  (∀ (s : State) (v : Word), s.writeReg 0#5 v = s) ∧
  (∀ s : State, s.readReg 0#5 = s.regs[0]) ∧
  (∀ s t : State, leaves (step s) t → t.readReg 0#5 = s.readReg 0#5) ∧
  (∀ (l : Launch) (k : Nat), ((State.launch l).run k).readReg 0#5 = l.rfInit[0]) ∧
  ∀ k : Nat, (State.reset.run k).readReg 0#5 = 0#32

/-- R46, R125. The launch parameters are what the launch gave them and fixed for the run: no step changes `IMEM`, so no
store is ever seen by a fetch, nor the policy, nor the memory size. -/
def Obligations.LaunchParametersAreFixed : Prop :=
  (∀ l : Launch, (State.launch l).imem = l.imem ∧ (State.launch l).fault = none ∧
    (State.launch l).policy = l.policy) ∧
  (∀ s t : State, leaves (step s) t → s.SameLaunch t) ∧
  (∀ (s t : State) (p : Word), leaves (step s) t → (t.setPc p).fetch = (s.setPc p).fetch) ∧
  ∀ (l : Launch) (k : Nat), (State.launch l).SameLaunch ((State.launch l).run k)

/-- Derived from 70_reset_and_hazards.md R132: a run of `j + k` steps is a run of `k` from where a run of `j` ended; a run
takes one more step while it is fault-free; at the first model fault it takes the state the fault leaves, and keeps it. -/
def Obligations.RunStopsAtTheFirstFault : Prop :=
  (∀ (s : State) (j k : Nat), s.run (j + k) = (s.run j).run k) ∧
  (∀ (s : State) (k : Nat), s.SafeFor (k + 1) → step (s.run k) = .next (s.run (k + 1))) ∧
  (∀ (s : State) (k : Nat), s.SafeFor k → ¬ s.SafeFor (k + 1) →
    ∃ f, step (s.run k) = .fault f ∧ f.stateAfter = some (s.run (k + 1))) ∧
  (∀ (s : State) (j k : Nat) (r : FaultRecord), (s.run j).fault = some r → s.run (j + k) = s.run j)

/-! ## The image loader and the assembler -/

/-- Derived from R127, R128 and R36, whose digit order the spec takes from general knowledge (entry 14). A line is read
exactly when it is 8 of the characters 0-9, A-F, a-f; it reads as `w` exactly when its digits are `w`'s, the first being
bits [31:28]; line `k` becomes `IMEM[k]`; an image of good lines is launched, under a well-formed launch; an image with any
other line is not loaded and there is no launch. -/
def Obligations.LoaderReadsTheImage : Prop :=
  (∀ line : List Char, (parseLine line).isSome = true ↔
    line.length = 8 ∧ ∀ c ∈ line, c ∈ "0123456789ABCDEFabcdef".toList) ∧
  (∀ (line : List Char) (w : Word), parseLine line = some w ↔
    line.map Char.toUpper = [28, 24, 20, 16, 12, 8, 4, 0].map fun low =>
      "0123456789ABCDEF".toList.getD (w.extractLsb' low 4).toNat ' ') ∧
  (∀ (lines : List (List Char)) (ws : List Word), loadImage lines = some ws ↔
    ws.length = lines.length ∧ ∀ k : Nat, (lines[k]?.map parseLine) = (ws[k]?.map some)) ∧
  (∀ (lines : List (List Char)) (ws : List Word) (l : Launch), loadImage lines = some ws → l.wf = true →
    bootImage lines l = some (State.launch { l with imem := ws })) ∧
  (∀ (lines : List (List Char)) (l : Launch) (line : List Char), line ∈ lines → parseLine line = none →
    bootImage lines l = none) ∧
  (∀ (lines : List (List Char)) (l : Launch) (s : State), bootImage lines l = some s →
    l.wf = true ∧ loadImage lines = some s.imem ∧ s = State.launch { l with imem := s.imem })

/-- Derived from 30_encoding.md section 5 (R65, R66): an assembler form has an instruction exactly when its operands are in
range, and the form printed for an instruction assembles to it; LUI, whose syntax has no `rs`, assembles to the LUI with
`rs` 0, which has the same effect (R96; entry 20). -/
def Obligations.AssemblerAcceptsAndRoundTrips : Prop :=
  (∀ a : AsmInstr, (assemble a).isSome = true ↔ a.wf = true) ∧
  (∀ i : Instr, (∀ rs rt imm, i ≠ .lui rs rt imm) → assemble (instrToAsm i) = some i) ∧
  (∀ (rs rt : RegIdx) (imm : Half), assemble (instrToAsm (.lui rs rt imm)) = some (.lui 0 rt imm)) ∧
  ∀ (rs rt : RegIdx) (imm : Half) (s : State), exec (.lui rs rt imm) s = exec (.lui 0 rt imm) s

/-- Derived from 30_encoding.md section 5 (R65, R66), with the text the model settles (entries 20 and 28): the text printed
for a form reads as that form, whatever its operands; so the text a word disassembles to assembles to what the word decodes
to (for LUI, with `rs` 0), and an unsupported word prints as `.word 0x` and its 8 digits, which read as the word. -/
def Obligations.PrintedTextReadsBack : Prop :=
  (∀ a : AsmInstr, parseAsm (asmText a).toList = some a) ∧
  (∀ (w : Word) (i : Instr), decode w = .instr i → (∀ rs rt imm, i ≠ .lui rs rt imm) →
    (parseAsm (disassemble w).toList).bind assemble = some i) ∧
  (∀ (w : Word) (rs rt : RegIdx) (imm : Half), decode w = .instr (.lui rs rt imm) →
    (parseAsm (disassemble w).toList).bind assemble = some (.lui 0 rt imm)) ∧
  (∀ (w : Word) (op func : Code), decode w = .unsupported op func →
    ∃ digits, disassemble w = ".word 0x" ++ String.ofList digits ∧ parseLine digits = some w)
end

