-- ==== Sys2Proof/Laws/Loader.lean ====
section
/-!
SUPPORT. The digits and numerals the loader and the assembler read, and an image as the list of its lines' words.
-/

namespace Sys2Proof.Machine

/-! ## Digits -/

theorem upperDigits_eq :
    upperDigits = ['0', '1', '2', '3', '4', '5', '6', '7', '8', '9', 'A', 'B', 'C', 'D', 'E', 'F'] := by decide

theorem lowerDigits_eq :
    lowerDigits = ['0', '1', '2', '3', '4', '5', '6', '7', '8', '9', 'a', 'b', 'c', 'd', 'e', 'f'] := by decide

/-- The digits of value `d` in both rows: what they read as, and what their capital is. -/
theorem hexDigit_of_row : ∀ d < 16,
    (hexDigit (upperDigits.getD d '0') = some d ∧ (upperDigits.getD d '0').toUpper = hexChar d) ∧
    hexDigit (lowerDigits.getD d '0') = some d ∧ (lowerDigits.getD d '0').toUpper = hexChar d := by decide

theorem hexChar_injective : ∀ a < 16, ∀ b < 16, hexChar a = hexChar b → a = b := by decide

theorem hexChar_mem : ∀ d < 16, hexChar d ∈ upperDigits := by decide

/-- A character of a row is the row's digit of some value. -/
theorem exists_row_value {row : List Char} (hr : row.length = 16) {c : Char} (hc : c ∈ row) :
    ∃ d < 16, c = row.getD d '0' := by
  obtain ⟨d, hd, rfl⟩ := List.mem_iff_getElem.1 hc
  exact ⟨d, hr ▸ hd, by simp [hd]⟩

theorem hexDigit_of_mem {c : Char} (hc : c ∈ upperDigits ∨ c ∈ lowerDigits) :
    ∃ d < 16, hexDigit c = some d ∧ c.toUpper = hexChar d := by
  obtain hc | hc := hc
  · obtain ⟨d, hd, rfl⟩ := exists_row_value (by rw [upperDigits_eq]; rfl) hc
    exact ⟨d, hd, (hexDigit_of_row d hd).1⟩
  · obtain ⟨d, hd, rfl⟩ := exists_row_value (by rw [lowerDigits_eq]; rfl) hc
    exact ⟨d, hd, (hexDigit_of_row d hd).2⟩

/-- Which characters are hexadecimal digits. -/
theorem hexDigit_isSome_iff (c : Char) : (hexDigit c).isSome = true ↔ c ∈ upperDigits ∨ c ∈ lowerDigits := by
  have mem (row : List Char) : (row.idxOf? c).isSome = true ↔ c ∈ row := by simp [← Option.ne_none_iff_isSome]
  rw [hexDigit, Option.isSome_or, Bool.or_eq_true, mem, mem]

/-- A character's capital is itself, or is 32 below a small letter. -/
theorem toUpper_cases (c : Char) : c.toUpper = c ∨ 97 ≤ c.toNat ∧ c.toUpper.toNat + 32 = c.toNat := by
  unfold Char.toUpper
  split
  · next h =>
    have h1 : 97 ≤ c.val.toNat := h.1
    have h2 : c.val.toNat ≤ 122 := h.2
    refine .inr ⟨h1, ?_⟩
    change (c.val + (65 - 97)).toNat + 32 = c.val.toNat
    rw [UInt32.toNat_add]
    change (c.val.toNat + 4294967264) % 2 ^ 32 + 32 = _
    omega
  · exact .inl rfl

theorem mem_digits_of_toUpper {c : Char} (h : c.toUpper ∈ upperDigits) : c ∈ upperDigits ∨ c ∈ lowerDigits := by
  obtain hc | ⟨hlow, hc⟩ := toUpper_cases c
  · exact .inl (hc ▸ h)
  · have hn : c.toNat ∈ upperDigits.map fun u => u.toNat + 32 :=
      hc ▸ List.mem_map_of_mem (f := fun u : Char => u.toNat + 32) h
    have hl : c.toNat ∈ lowerDigits.map Char.toNat := by
      simp [upperDigits_eq, lowerDigits_eq] at hn ⊢
      omega
    obtain ⟨l, hl, he⟩ := List.mem_map.1 hl
    exact .inr (Char.toNat_inj.1 he ▸ hl)

/-- What a character reads as: the value of its capital. -/
theorem hexDigit_eq_some_iff (c : Char) (d : Nat) : hexDigit c = some d ↔ d < 16 ∧ c.toUpper = hexChar d := by
  constructor
  · intro h
    obtain ⟨e, hl, he, hu⟩ := hexDigit_of_mem ((hexDigit_isSome_iff c).1 (by simp [h]))
    cases h.symm.trans he
    exact ⟨hl, hu⟩
  · rintro ⟨hl, hu⟩
    obtain ⟨e, hel, he, hue⟩ := hexDigit_of_mem (mem_digits_of_toUpper (hu ▸ hexChar_mem d hl))
    rw [he, hexChar_injective e hel d hl (hue.symm.trans hu)]

/-- The decimal digit printed for a value below ten reads as that value. -/
theorem decDigit_digitChar : ∀ d < 10, decDigit d.digitChar = some d := by decide

/-! ## Numerals -/

theorem readNumeral_append (base : Nat) (digit : Char → Option Nat) (value : Nat) (xs ys : List Char) :
    readNumeral base digit value (xs ++ ys) =
      (readNumeral base digit value xs).bind fun v => readNumeral base digit v ys := by
  induction xs generalizing value with
  | nil => rfl
  | cons x xs ih => cases h : digit x <;> simp [readNumeral, h, ih]

/-- A numeral has a value exactly when all its characters are digits. -/
theorem readNumeral_isSome_iff (base : Nat) (digit : Char → Option Nat) (value : Nat) (cs : List Char) :
    (readNumeral base digit value cs).isSome = true ↔ ∀ c ∈ cs, (digit c).isSome = true := by
  induction cs generalizing value with
  | nil => simp [readNumeral]
  | cons c cs ih => cases h : digit c <;> simp [readNumeral, h, ih]

/-- The decimal numeral printed for `n` reads as `n`. -/
theorem readNumeral_toDigits (n : Nat) : readNumeral 10 decDigit 0 (Nat.toDigits 10 n) = some n := by
  induction n using Nat.strongRecOn with
  | ind n ih =>
    by_cases h : n < 10
    · rw [Nat.toDigits_of_lt_base h]
      simp [readNumeral, decDigit_digitChar n h]
    · rw [Nat.toDigits_of_base_le (by omega) (by omega), readNumeral_append, ih _ (by omega)]
      simp [readNumeral, decDigit_digitChar (n % 10) (by omega)]
      omega

/-! ## Images -/

/-- An image loads as the words its lines read as, or not at all. -/
theorem loadImage_eq_some_iff (lines : List (List Char)) (ws : List Word) :
    loadImage lines = some ws ↔ lines.map parseLine = ws.map some := by
  induction lines generalizing ws with
  | nil => cases ws <;> simp [loadImage]
  | cons l ls ih =>
    cases ws with
    | nil => simp only [loadImage]; split <;> simp
    | cons w ws =>
      simp only [List.map_cons, List.cons.injEq, ← ih, loadImage]
      cases parseLine l <;> cases loadImage ls <;> simp

end Sys2Proof.Machine
end

