-- ==== Sys2Proof/Laws/Assembler.lean ====
section
/-!
SUPPORT. What the assembler accepts, and how printed text comes apart again.
-/

namespace Sys2Proof.Machine

/-! ## Operands -/

@[simp] theorem assembleReg_toNat (r : RegIdx) : assembleReg r.toNat = some r := by
  have : r.toNat < 32 := r.isLt
  simp [assembleReg, regNumberOk, this]

@[simp] theorem assembleReg_zero : assembleReg 0 = some 0#5 := by decide

@[simp] theorem assembleImm_toInt (i : Half) : assembleImm i.toInt = some i := by
  have h1 := BitVec.le_toInt i
  have h2 := BitVec.toInt_lt (x := i)
  simp [assembleImm, immediateOk]
  omega

theorem assembleReg_isSome (n : Nat) : (assembleReg n).isSome = regNumberOk n := by
  unfold assembleReg
  split <;> simp_all

theorem assembleImm_isSome (v : Int) : (assembleImm v).isSome = immediateOk v := by
  unfold assembleImm
  split <;> simp_all

theorem assembleR_isSome (make : RegIdx → RegIdx → RegIdx → Instr) (rd rs rt : Nat) :
    (assembleR make rd rs rt).isSome = (regNumberOk rd && regNumberOk rs && regNumberOk rt) := by
  simp only [← assembleReg_isSome, assembleR]
  cases assembleReg rd <;> cases assembleReg rs <;> cases assembleReg rt <;> rfl

theorem assembleI_isSome (make : RegIdx → RegIdx → Half → Instr) (rs rt : Nat) (v : Int) :
    (assembleI make rs rt v).isSome = (regNumberOk rs && regNumberOk rt && immediateOk v) := by
  simp only [← assembleReg_isSome, ← assembleImm_isSome, assembleI]
  cases assembleReg rs <;> cases assembleReg rt <;> cases assembleImm v <;> rfl

/-! ## Splitting -/

theorem splitChars_of_not_mem {c : Char} {xs : List Char} (h : c ∉ xs) (acc : List Char) :
    splitChars c xs acc = [acc.reverse ++ xs] := by
  induction xs generalizing acc with
  | nil => simp [splitChars]
  | cons x xs ih =>
    rw [List.mem_cons, not_or] at h
    rw [splitChars, if_neg (Ne.symm h.1), ih h.2]
    simp

theorem splitChars_append {c : Char} {xs : List Char} (h : c ∉ xs) (ys acc : List Char) :
    splitChars c (xs ++ c :: ys) acc = (acc.reverse ++ xs) :: splitChars c ys [] := by
  induction xs generalizing acc with
  | nil => simp [splitChars]
  | cons x xs ih =>
    rw [List.mem_cons, not_or] at h
    rw [List.cons_append, splitChars, if_neg (Ne.symm h.1), ih h.2]
    simp

/-! ## Printed numbers -/

/-- No printed number holds a character that is not a digit. -/
theorem not_mem_toDigits {c : Char} (hc : c.isDigit = false) (n : Nat) : c ∉ Nat.toDigits 10 n := fun h => by
  rw [Nat.isDigit_of_mem_toDigits (by omega) (by omega) h] at hc
  cases hc

theorem regText_toList (n : Nat) : (regText n).toList = '$' :: Nat.toDigits 10 n := by
  simp [regText]

/-- A printed immediate: a decimal numeral, after a minus sign for a negative value. -/
theorem immText_toList (v : Int) : (immText v).toList =
    if v < 0 then '-' :: Nat.toDigits 10 v.natAbs else Nat.toDigits 10 v.natAbs := by
  cases v with
  | ofNat n =>
    rw [if_neg (show ¬ Int.ofNat n < 0 by simp)]
    change (Nat.repr n).toList = _
    simp
  | negSucc n =>
    rw [if_pos (Int.negSucc_lt_zero n)]
    change ("-" ++ Nat.repr (n + 1)).toList = _
    simp

theorem parseReg_regText (n : Nat) : parseReg (regText n).toList = some n := by
  rw [regText_toList]
  unfold parseReg
  split
  · next h => simp at h
  · next h => cases h; exact readNumeral_toDigits n
  · next h => exact absurd rfl (h _)

theorem parseMagnitude_toDigits (n : Nat) : parseMagnitude (Nat.toDigits 10 n) = some n := by
  have hx := not_mem_toDigits (c := 'x') (by decide) n
  unfold parseMagnitude
  split
  · next h => simp at h
  · next h => simp [h] at hx
  · next h => simp [h] at hx
  · exact readNumeral_toDigits n

theorem parseImm_immText (v : Int) : parseImm (immText v).toList = some v := by
  have hm := not_mem_toDigits (c := '-') (by decide) v.natAbs
  rw [immText_toList]
  split
  · next hv => simp [parseImm, parseMagnitude_toDigits, abs_of_neg hv]
  · next hv =>
    unfold parseImm
    split
    · next h => simp [h] at hm
    · simp [parseMagnitude_toDigits, abs_of_nonneg (Int.not_lt.1 hv)]

/-- A printed register or immediate holds no separator. -/
theorem not_mem_operandText {c : Char} (hd : c.isDigit = false) (h1 : c ≠ '$') (h2 : c ≠ '-') :
    (∀ n, c ∉ (regText n).toList) ∧ ∀ v, c ∉ (immText v).toList := by
  refine ⟨fun n => ?_, fun v => ?_⟩
  · simp [regText_toList, h1, not_mem_toDigits hd n]
  · rw [immText_toList]
    split <;> simp [h2, not_mem_toDigits hd]

end Sys2Proof.Machine
end

