-- ==== Sys2Proof/Laws/Decode.lean ====
section
/-!
SUPPORT. The fields of an encoded word, the masks of the opcode table as tests on fields, and decoding read backwards.
-/

namespace Sys2Proof

/-! ## The fields of an encoded word -/

/-- Every bit of an R-format word (30_encoding.md R50). -/
theorem getLsbD_encodeR (func : Code) (rs rt rd : RegIdx) (j : Nat) :
    (encodeR func rs rt rd).getLsbD j =
      if j < 6 then func.getLsbD j else if j < 11 then false else if j < 16 then rd.getLsbD (j - 11)
      else if j < 21 then rt.getLsbD (j - 16) else if j < 26 then rs.getLsbD (j - 21) else false := by
  unfold encodeR
  simp only [BitVec.getLsbD_append, Nat.sub_sub]
  by_cases h6 : j < 6
  · simp [h6]
  by_cases h11 : j < 11
  · simp [h6, h11, show j - 6 < 5 by omega]
  by_cases h16 : j < 16
  · simp [h6, h11, h16, show ¬ j - 6 < 5 by omega, show j - 11 < 5 by omega]
  by_cases h21 : j < 21
  · simp [h6, h11, h16, h21, show ¬ j - 6 < 5 by omega, show ¬ j - 11 < 5 by omega, show j - 16 < 5 by omega]
  by_cases h26 : j < 26
  · simp [h6, h11, h16, h21, h26, show ¬ j - 6 < 5 by omega, show ¬ j - 11 < 5 by omega,
      show ¬ j - 16 < 5 by omega, show j - 21 < 5 by omega]
  · simp [h6, h11, h16, h21, h26, show ¬ j - 6 < 5 by omega, show ¬ j - 11 < 5 by omega,
      show ¬ j - 16 < 5 by omega, show ¬ j - 21 < 5 by omega, opRFormat]

/-- Every bit of an I-format word (30_encoding.md R50). -/
theorem getLsbD_encodeI (op : Code) (rs rt : RegIdx) (imm : Half) (j : Nat) :
    (encodeI op rs rt imm).getLsbD j =
      if j < 16 then imm.getLsbD j else if j < 21 then rt.getLsbD (j - 16)
      else if j < 26 then rs.getLsbD (j - 21) else op.getLsbD (j - 26) := by
  unfold encodeI
  simp only [BitVec.getLsbD_append, Nat.sub_sub]
  by_cases h16 : j < 16
  · simp [h16]
  by_cases h21 : j < 21
  · simp [h16, h21, show j - 16 < 5 by omega]
  by_cases h26 : j < 26
  · simp [h16, h21, h26, show ¬ j - 16 < 5 by omega, show j - 21 < 5 by omega]
  · simp [h16, h21, h26, show ¬ j - 16 < 5 by omega, show ¬ j - 21 < 5 by omega]

section encodeR
variable (func : Code) (rs rt rd : RegIdx)

@[simp] theorem fieldOp_encodeR : fieldOp (encodeR func rs rt rd) = opRFormat := by
  ext i hi
  simp [fieldOp, getLsbD_encodeR, opRFormat, show ¬ 26 + i < 6 by omega, show ¬ 26 + i < 16 by omega,
    show ¬ 26 + i < 21 by omega]

@[simp] theorem fieldRs_encodeR : fieldRs (encodeR func rs rt rd) = rs := by
  ext i hi
  simp [fieldRs, getLsbD_encodeR, hi, show ¬ 21 + i < 6 by omega, show ¬ 21 + i < 11 by omega,
    show ¬ 21 + i < 16 by omega, show 21 + i < 26 by omega]

@[simp] theorem fieldRt_encodeR : fieldRt (encodeR func rs rt rd) = rt := by
  ext i hi
  simp [fieldRt, getLsbD_encodeR, hi, show ¬ 16 + i < 6 by omega, show ¬ 16 + i < 11 by omega,
    show 16 + i < 21 by omega]

@[simp] theorem fieldRd_encodeR : fieldRd (encodeR func rs rt rd) = rd := by
  ext i hi
  simp [fieldRd, getLsbD_encodeR, hi, show ¬ 11 + i < 6 by omega, show 11 + i < 16 by omega]

@[simp] theorem fieldFunc_encodeR : fieldFunc (encodeR func rs rt rd) = func := by
  ext i hi
  simp [fieldFunc, getLsbD_encodeR, hi]

end encodeR

section encodeI
variable (op : Code) (rs rt : RegIdx) (imm : Half)

@[simp] theorem fieldOp_encodeI : fieldOp (encodeI op rs rt imm) = op := by
  ext i hi
  simp [fieldOp, getLsbD_encodeI, hi, show ¬ 26 + i < 16 by omega, show ¬ 26 + i < 21 by omega]

@[simp] theorem fieldRs_encodeI : fieldRs (encodeI op rs rt imm) = rs := by
  ext i hi
  simp [fieldRs, getLsbD_encodeI, hi, show ¬ 21 + i < 16 by omega, show 21 + i < 26 by omega]

@[simp] theorem fieldRt_encodeI : fieldRt (encodeI op rs rt imm) = rt := by
  ext i hi
  simp [fieldRt, getLsbD_encodeI, hi, show 16 + i < 21 by omega]

@[simp] theorem fieldImm_encodeI : fieldImm (encodeI op rs rt imm) = imm := by
  ext i hi
  simp [fieldImm, getLsbD_encodeI, hi]

end encodeI

/-! ## A word from its fields -/

/-- An I-format word is the encoding of its own fields. -/
theorem encodeI_fields (w : Word) : encodeI (fieldOp w) (fieldRs w) (fieldRt w) (fieldImm w) = w := by
  apply BitVec.eq_of_getLsbD_eq
  intro j hj
  rw [getLsbD_encodeI]
  simp only [fieldOp, fieldRs, fieldRt, fieldImm, BitVec.getLsbD_extractLsb']
  by_cases h16 : j < 16
  · simp [h16]
  by_cases h21 : j < 21
  · simp [h16, h21, show j - 16 < 5 by omega, show 16 + (j - 16) = j by omega]
  by_cases h26 : j < 26
  · simp [h16, h21, h26, show j - 21 < 5 by omega, show 21 + (j - 21) = j by omega]
  · simp [h16, h21, h26, show j - 26 < 6 by omega, show 26 + (j - 26) = j by omega]

/-- The bits of the mask that clears bits [10:6]. -/
theorem getLsbD_clearMask (j : Nat) (hj : j < 32) : (0xFFFFF83F#32).getLsbD j = decide (j < 6 ∨ 11 ≤ j) := by
  revert j
  decide

/-- An R-format word is the encoding of its own fields but for bits [10:6] (30_encoding.md R51). -/
theorem encodeR_fields {w : Word} (h : fieldOp w = opRFormat) :
    encodeR (fieldFunc w) (fieldRs w) (fieldRt w) (fieldRd w) = w &&& 0xFFFFF83F#32 := by
  apply BitVec.eq_of_getLsbD_eq
  intro j hj
  rw [getLsbD_encodeR, BitVec.getLsbD_and, getLsbD_clearMask j hj]
  simp only [fieldFunc, fieldRs, fieldRt, fieldRd, BitVec.getLsbD_extractLsb']
  by_cases h6 : j < 6
  · simp [h6]
  by_cases h11 : j < 11
  · simp [h6, h11, show ¬ 11 ≤ j by omega]
  by_cases h16 : j < 16
  · simp [h6, h11, h16, show j - 11 < 5 by omega, show 11 + (j - 11) = j by omega, show 11 ≤ j by omega]
  by_cases h21 : j < 21
  · simp [h6, h11, h16, h21, show j - 16 < 5 by omega, show 16 + (j - 16) = j by omega, show 11 ≤ j by omega]
  by_cases h26 : j < 26
  · simp [h6, h11, h16, h21, h26, show j - 21 < 5 by omega, show 21 + (j - 21) = j by omega,
      show 11 ≤ j by omega]
  · have hbit := congrArg (fun x : Code => x.getLsbD (j - 26)) h
    simp only [fieldOp, BitVec.getLsbD_extractLsb', show j - 26 < 6 by omega,
      show 26 + (j - 26) = j by omega, opRFormat] at hbit
    simpa [h6, h11, h16, h21, h26] using hbit

/-- Clearing bits [10:6] of a word keeps every other bit, and so every field the R format uses. -/
theorem fields_clear (w : Word) :
    fieldOp (w &&& 0xFFFFF83F#32) = fieldOp w ∧ fieldRs (w &&& 0xFFFFF83F#32) = fieldRs w ∧
    fieldRt (w &&& 0xFFFFF83F#32) = fieldRt w ∧ fieldRd (w &&& 0xFFFFF83F#32) = fieldRd w ∧
    fieldFunc (w &&& 0xFFFFF83F#32) = fieldFunc w := by
  have hand (start len : Nat) (hb : start + len ≤ 32) (hs : start + len ≤ 6 ∨ 11 ≤ start) :
      (w &&& 0xFFFFF83F#32).extractLsb' start len = w.extractLsb' start len := by
    ext i hi
    rw [BitVec.getElem_extractLsb', BitVec.getElem_extractLsb', BitVec.getLsbD_and,
      getLsbD_clearMask (start + i) (by omega)]
    simp only [show (start + i < 6 ∨ 11 ≤ start + i) by omega, decide_true, Bool.and_true]
  exact ⟨hand _ _ (by omega) (by omega), hand _ _ (by omega) (by omega), hand _ _ (by omega) (by omega),
    hand _ _ (by omega) (by omega), hand _ _ (by omega) (by omega)⟩

/-! ## The masks of the opcode table -/

/-- The bits of the I-format mask. -/
theorem getLsbD_maskI (j : Nat) (hj : j < 32) : (0xFC000000#32).getLsbD j = decide (26 ≤ j) := by
  revert j
  decide

/-- The bits of the R-format mask. -/
theorem getLsbD_maskR (j : Nat) (hj : j < 32) : (0xFC00003F#32).getLsbD j = decide (26 ≤ j ∨ j < 6) := by
  revert j
  decide

/-- The I-format mask tests `op` alone (30_encoding.md R58). -/
theorem maskI_iff (w : Word) (c : Code) : w &&& 0xFC000000#32 = encodeI c 0 0 0 ↔ fieldOp w = c := by
  constructor
  · intro h
    ext i hi
    have := congrArg (fun x : Word => x.getLsbD (26 + i)) h
    simp only [BitVec.getLsbD_and, getLsbD_maskI (26 + i) (by omega), getLsbD_encodeI,
      show ¬ 26 + i < 16 by omega, show ¬ 26 + i < 21 by omega, show ¬ 26 + i < 26 by omega,
      if_false, show 26 + i - 26 = i by omega, show 26 ≤ 26 + i by omega, decide_true, Bool.and_true] at this
    simpa [fieldOp, hi] using this
  · rintro rfl
    apply BitVec.eq_of_getLsbD_eq
    intro j hj
    rw [BitVec.getLsbD_and, getLsbD_maskI j hj, getLsbD_encodeI]
    simp only [fieldOp, BitVec.getLsbD_extractLsb']
    by_cases h16 : j < 16
    · simp [h16, show ¬ 26 ≤ j by omega]
    by_cases h21 : j < 21
    · simp [h16, h21, show ¬ 26 ≤ j by omega]
    by_cases h26 : j < 26
    · simp [h16, h21, h26]
    · simp [h16, h21, h26, show j - 26 < 6 by omega, show 26 + (j - 26) = j by omega, show 26 ≤ j by omega]

/-- The R-format mask tests `op` and `func` (30_encoding.md R58). -/
theorem maskR_iff (w : Word) (c : Code) :
    w &&& 0xFC00003F#32 = encodeR c 0 0 0 ↔ fieldOp w = opRFormat ∧ fieldFunc w = c := by
  constructor
  · intro h
    constructor
    · ext i hi
      have := congrArg (fun x : Word => x.getLsbD (26 + i)) h
      simp only [BitVec.getLsbD_and, getLsbD_maskR (26 + i) (by omega), getLsbD_encodeR,
        show ¬ 26 + i < 6 by omega, show ¬ 26 + i < 11 by omega, show ¬ 26 + i < 16 by omega,
        show ¬ 26 + i < 21 by omega, show ¬ 26 + i < 26 by omega, if_false,
        show (26 ≤ 26 + i ∨ False) by omega, decide_true, Bool.and_true] at this
      simpa [fieldOp, opRFormat, hi] using this
    · ext i hi
      have := congrArg (fun x : Word => x.getLsbD i) h
      simp only [BitVec.getLsbD_and, getLsbD_maskR i (by omega), getLsbD_encodeR, hi, or_true,
        decide_true, Bool.and_true, if_true] at this
      simpa [fieldFunc, hi] using this
  · rintro ⟨hop, rfl⟩
    apply BitVec.eq_of_getLsbD_eq
    intro j hj
    rw [BitVec.getLsbD_and, getLsbD_maskR j hj, getLsbD_encodeR]
    simp only [fieldFunc, BitVec.getLsbD_extractLsb']
    by_cases h6 : j < 6
    · simp [h6]
    by_cases h26 : j < 26
    · simp [h6, h26, show ¬ 26 ≤ j by omega]
    · have hbit := congrArg (fun x : Code => x.getLsbD (j - 26)) hop
      simp only [fieldOp, BitVec.getLsbD_extractLsb', show j - 26 < 6 by omega,
        show 26 + (j - 26) = j by omega, opRFormat] at hbit
      simpa [h6, h26, show ¬ j < 11 by omega, show ¬ j < 16 by omega, show ¬ j < 21 by omega] using hbit

/-! ## The rows of the opcode table as tests on fields -/

theorem rowAdd_matches (w : Word) : rowAdd.Matches w ↔ fieldOp w = opRFormat ∧ fieldFunc w = funcAdd :=
  maskR_iff w funcAdd
theorem rowAnd_matches (w : Word) : rowAnd.Matches w ↔ fieldOp w = opRFormat ∧ fieldFunc w = funcAnd :=
  maskR_iff w funcAnd
theorem rowSlt_matches (w : Word) : rowSlt.Matches w ↔ fieldOp w = opRFormat ∧ fieldFunc w = funcSlt :=
  maskR_iff w funcSlt
theorem rowAddi_matches (w : Word) : rowAddi.Matches w ↔ fieldOp w = opAddi := maskI_iff w opAddi
theorem rowLui_matches (w : Word) : rowLui.Matches w ↔ fieldOp w = opLui := maskI_iff w opLui
theorem rowOri_matches (w : Word) : rowOri.Matches w ↔ fieldOp w = opOri := maskI_iff w opOri
theorem rowLw_matches (w : Word) : rowLw.Matches w ↔ fieldOp w = opLw := maskI_iff w opLw
theorem rowSw_matches (w : Word) : rowSw.Matches w ↔ fieldOp w = opSw := maskI_iff w opSw
theorem rowBeq_matches (w : Word) : rowBeq.Matches w ↔ fieldOp w = opBeq := maskI_iff w opBeq

/-! ## The control table read backwards -/

/-- Which row of the control table a pair has, if any: once, for every case (30_encoding.md R57, R58). -/
theorem Machine.controlRow_cases (op func : Code) :
    (op = opRFormat ∧ func = funcAdd ∧ Machine.controlRow op func = some (Machine.rFormatSignals .add)) ∨
    (op = opRFormat ∧ func = funcAnd ∧ Machine.controlRow op func = some (Machine.rFormatSignals .and)) ∨
    (op = opRFormat ∧ func = funcSlt ∧ Machine.controlRow op func = some (Machine.rFormatSignals .slt)) ∨
    (op = opAddi ∧ Machine.controlRow op func = some (Machine.immediateSignals .add)) ∨
    (op = opLui ∧ Machine.controlRow op func = some (Machine.immediateSignals .shl16)) ∨
    (op = opOri ∧ Machine.controlRow op func = some (Machine.immediateSignals .or)) ∨
    (op = opLw ∧ Machine.controlRow op func = some Machine.lwSignals) ∨
    (op = opSw ∧ Machine.controlRow op func = some Machine.swSignals) ∨
    (op = opBeq ∧ Machine.controlRow op func = some Machine.beqSignals) ∨
    ((op = opRFormat → func ≠ funcAdd ∧ func ≠ funcAnd ∧ func ≠ funcSlt) ∧ op ≠ opAddi ∧ op ≠ opLui ∧ op ≠ opOri ∧
      op ≠ opLw ∧ op ≠ opSw ∧ op ≠ opBeq ∧ Machine.controlRow op func = none) := by
  unfold Machine.controlRow
  split_ifs <;> simp_all [opRFormat, opAddi, opLui, opOri, opLw, opSw, opBeq]

/-! ## Decoding read backwards -/

/-- What a word decodes to, and the fields that make it so: once, for every case. -/
theorem decode_cases (w : Word) :
    (fieldOp w = opRFormat ∧ fieldFunc w = funcAdd ∧ decode w = .instr (.add (fieldRs w) (fieldRt w) (fieldRd w))) ∨
    (fieldOp w = opRFormat ∧ fieldFunc w = funcAnd ∧ decode w = .instr (.and (fieldRs w) (fieldRt w) (fieldRd w))) ∨
    (fieldOp w = opRFormat ∧ fieldFunc w = funcSlt ∧ decode w = .instr (.slt (fieldRs w) (fieldRt w) (fieldRd w))) ∨
    (fieldOp w = opAddi ∧ decode w = .instr (.addi (fieldRs w) (fieldRt w) (fieldImm w))) ∨
    (fieldOp w = opLui ∧ decode w = .instr (.lui (fieldRs w) (fieldRt w) (fieldImm w))) ∨
    (fieldOp w = opOri ∧ decode w = .instr (.ori (fieldRs w) (fieldRt w) (fieldImm w))) ∨
    (fieldOp w = opLw ∧ decode w = .instr (.lw (fieldRs w) (fieldRt w) (fieldImm w))) ∨
    (fieldOp w = opSw ∧ decode w = .instr (.sw (fieldRs w) (fieldRt w) (fieldImm w))) ∨
    (fieldOp w = opBeq ∧ decode w = .instr (.beq (fieldRs w) (fieldRt w) (fieldImm w))) ∨
    (Machine.controlRow (fieldOp w) (fieldFunc w) = none ∧ decode w = .unsupported (fieldOp w) (fieldFunc w)) := by
  unfold decode instrOf Machine.controlRow
  split_ifs <;> simp_all

/-- Decoding rejects exactly the pairs the control unit does not match (30_encoding.md R58). -/
theorem decode_unsupported_iff (w : Word) :
    (∃ op func, decode w = .unsupported op func) ↔ Machine.controlRow (fieldOp w) (fieldFunc w) = none := by
  unfold decode instrOf Machine.controlRow
  split_ifs <;> simp

/-- A word that does not have `op = 0` is the encoding of what it decodes to. -/
theorem encode_of_decode_I {w : Word} {i : Instr} (h : decode w = .instr i) (hop : fieldOp w ≠ opRFormat) :
    encode i = w := by
  have whole {c : Code} (hc : fieldOp w = c) : encodeI c (fieldRs w) (fieldRt w) (fieldImm w) = w :=
    hc ▸ encodeI_fields w
  rcases decode_cases w with h' | h' | h' | h' | h' | h' | h' | h' | h' | h'
  · exact absurd h'.1 hop
  · exact absurd h'.1 hop
  · exact absurd h'.1 hop
  all_goals cases h.symm.trans h'.2
  all_goals exact whole h'.1

end Sys2Proof
end

