-- ==== Sys2Proof/Laws/Memory.lean ====
section
/-!
SUPPORT. The data memory as data: a read after a write, what a write leaves alone, and the canonical form.
-/

namespace Sys2Proof.Machine

/-- The order and no-default halves of `Memory.wf`. -/
theorem Memory.wf_iff (m : Memory) :
    m.wf = true ↔ m.Pairwise (fun p q => p.1 < q.1) ∧ ∀ p ∈ m, p.2 ≠ unlistedCell := by
  simp [Memory.wf]

theorem Memory.read_nil (a : Nat) : Memory.read [] a = 0#32 := rfl

theorem Memory.read_erase (m : Memory) (a b : Nat) :
    (m.erase a).read b = if b = a then unlistedCell else m.read b := by
  induction m with
  | nil => simp [Memory.erase, Memory.read]
  | cons p m ih =>
    obtain ⟨k, x⟩ := p
    by_cases hk : k = a
    · subst hk
      simp only [Memory.erase, if_true, ih, Memory.read]
      by_cases hb : b = k
      · simp [hb]
      · simp [hb, Ne.symm hb]
    · simp only [Memory.erase, if_neg hk, Memory.read, ih]
      by_cases hb : k = b
      · subst hb; simp [hk]
      · simp [hb]

theorem Memory.mem_erase {m : Memory} {a : Nat} {p : Nat × Word} (h : p ∈ m.erase a) : p ∈ m ∧ p.1 ≠ a := by
  induction m with
  | nil => simp [Memory.erase] at h
  | cons q m ih =>
    obtain ⟨k, x⟩ := q
    by_cases hk : k = a
    · simp only [Memory.erase, if_pos hk] at h
      exact ⟨List.mem_cons_of_mem _ (ih h).1, (ih h).2⟩
    · simp only [Memory.erase, if_neg hk, List.mem_cons] at h
      rcases h with rfl | h
      · exact ⟨List.mem_cons_self .., hk⟩
      · exact ⟨List.mem_cons_of_mem _ (ih h).1, (ih h).2⟩

theorem Memory.mem_insert {m : Memory} {a : Nat} {v : Word} {p : Nat × Word} :
    p ∈ m.insert a v ↔ p = (a, v) ∨ p ∈ m := by
  induction m with
  | nil => simp [Memory.insert]
  | cons q m ih =>
    obtain ⟨k, x⟩ := q
    by_cases hk : a < k
    · simp [Memory.insert, hk]
    · simp only [Memory.insert, if_neg hk, List.mem_cons, ih]
      tauto

theorem Memory.read_insert (m : Memory) (a b : Nat) (v : Word) (ha : ∀ p ∈ m, p.1 ≠ a) :
    (m.insert a v).read b = if b = a then v else m.read b := by
  induction m with
  | nil =>
    rcases eq_or_ne b a with rfl | hb
    · simp [Memory.insert, Memory.read]
    · simp [Memory.insert, Memory.read, hb, hb.symm]
  | cons q m ih =>
    obtain ⟨k, x⟩ := q
    have hk : k ≠ a := ha _ (List.mem_cons_self ..)
    have ih := ih fun p hp => ha p (List.mem_cons_of_mem _ hp)
    by_cases hlt : a < k
    · rcases eq_or_ne b a with rfl | hb
      · simp [Memory.insert, Memory.read, hlt]
      · simp [Memory.insert, Memory.read, hlt, hb, hb.symm]
    · simp only [Memory.insert, if_neg hlt, Memory.read, ih]
      by_cases hb : k = b
      · subst hb; simp [hk]
      · simp [hb]

/-- A write, said once: the written cell reads the value, every other cell as before. -/
theorem Memory.read_write (m : Memory) (a b : Nat) (v : Word) :
    (m.write a v).read b = if b = a then v else m.read b := by
  unfold Memory.write
  split
  · next hv => rw [Memory.read_erase, hv]
  · rw [Memory.read_insert _ _ _ _ fun p hp => (Memory.mem_erase hp).2, Memory.read_erase]
    split <;> simp_all

@[simp] theorem Memory.read_write_same (m : Memory) (a : Nat) (v : Word) : (m.write a v).read a = v := by
  simp [Memory.read_write]

theorem Memory.read_write_other (m : Memory) {a b : Nat} (v : Word) (h : b ≠ a) :
    (m.write a v).read b = m.read b := by
  simp [Memory.read_write, h]

theorem Memory.mem_write {m : Memory} {a : Nat} {v : Word} {p : Nat × Word} (h : p ∈ m.write a v) :
    p = (a, v) ∧ v ≠ unlistedCell ∨ p ∈ m := by
  unfold Memory.write at h
  split at h
  · exact .inr (Memory.mem_erase h).1
  · next hv =>
    rcases Memory.mem_insert.1 h with rfl | h
    · exact .inl ⟨rfl, hv⟩
    · exact .inr (Memory.mem_erase h).1

theorem Memory.erase_sorted {m : Memory} (h : m.Pairwise fun p q => p.1 < q.1) (a : Nat) :
    (m.erase a).Pairwise fun p q => p.1 < q.1 := by
  induction m with
  | nil => exact .nil
  | cons q m ih =>
    obtain ⟨k, x⟩ := q
    obtain ⟨hk, hm⟩ := List.pairwise_cons.1 h
    by_cases hka : k = a
    · simpa only [Memory.erase, if_pos hka] using ih hm
    · simp only [Memory.erase, if_neg hka]
      exact List.pairwise_cons.2 ⟨fun p hp => hk p (Memory.mem_erase hp).1, ih hm⟩

theorem Memory.insert_sorted {m : Memory} (h : m.Pairwise fun p q => p.1 < q.1) {a : Nat} (v : Word)
    (ha : ∀ p ∈ m, p.1 ≠ a) : (m.insert a v).Pairwise fun p q => p.1 < q.1 := by
  induction m with
  | nil => simp [Memory.insert]
  | cons q m ih =>
    obtain ⟨k, x⟩ := q
    obtain ⟨hk, hm⟩ := List.pairwise_cons.1 h
    have hka : k ≠ a := ha _ (List.mem_cons_self ..)
    by_cases hlt : a < k
    · simp only [Memory.insert, if_pos hlt]
      refine List.pairwise_cons.2 ⟨fun p hp => ?_, h⟩
      rcases List.mem_cons.1 hp with rfl | hp
      · exact hlt
      · exact hlt.trans (hk p hp)
    · simp only [Memory.insert, if_neg hlt]
      refine List.pairwise_cons.2 ⟨fun p hp => ?_, ih hm fun p hp => ha p (List.mem_cons_of_mem _ hp)⟩
      rcases Memory.mem_insert.1 hp with rfl | hp
      · show k < a
        omega
      · exact hk p hp

/-- Every memory write keeps the canonical form. -/
theorem Memory.write_wf {m : Memory} (h : m.wf = true) (a : Nat) (v : Word) : (m.write a v).wf = true := by
  obtain ⟨hs, hd⟩ := (Memory.wf_iff m).1 h
  refine (Memory.wf_iff _).2 ⟨?_, fun p hp => ?_⟩
  · unfold Memory.write
    split
    · exact Memory.erase_sorted hs a
    · exact Memory.insert_sorted (Memory.erase_sorted hs a) v fun p hp => (Memory.mem_erase hp).2
  · rcases Memory.mem_write hp with ⟨rfl, hv⟩ | hp
    · exact hv
    · exact hd p hp

theorem dmemWrite_wf {s : State} (h : s.dmem.wf = true) (ea v : Word) : (s.dmemWrite ea v).dmem.wf = true :=
  Memory.write_wf h ea.toNat v

theorem launch_wf (l : Launch) : (State.launch l).dmem.wf = true := rfl

end Sys2Proof.Machine
end

