-- ==== Sys2Proof/Laws/State.lean ====
section
/-!
SUPPORT. One lemma per field per update, true by rfl.
-/

namespace Sys2Proof.Machine

section launch
variable (l : Launch)
@[simp] theorem launch_pc : (State.launch l).pc = 0#32 := rfl
@[simp] theorem launch_regs : (State.launch l).regs = l.rfInit := rfl
@[simp] theorem launch_dmem : (State.launch l).dmem = [] := rfl
@[simp] theorem launch_fault : (State.launch l).fault = none := rfl
@[simp] theorem launch_imem : (State.launch l).imem = l.imem := rfl
@[simp] theorem launch_dmemWords : (State.launch l).dmemWords = l.dmemWords := rfl
@[simp] theorem launch_policy : (State.launch l).policy = l.policy := rfl
end launch

section setPc
variable (s : State) (p : Word)
@[simp] theorem setPc_pc : (s.setPc p).pc = p := rfl
@[simp] theorem setPc_regs : (s.setPc p).regs = s.regs := rfl
@[simp] theorem setPc_dmem : (s.setPc p).dmem = s.dmem := rfl
@[simp] theorem setPc_fault : (s.setPc p).fault = s.fault := rfl
@[simp] theorem setPc_imem : (s.setPc p).imem = s.imem := rfl
@[simp] theorem setPc_dmemWords : (s.setPc p).dmemWords = s.dmemWords := rfl
@[simp] theorem setPc_policy : (s.setPc p).policy = s.policy := rfl
end setPc

section advance
variable (s : State)
@[simp] theorem advance_pc : s.advance.pc = s.pc + 1#32 := rfl
@[simp] theorem advance_regs : s.advance.regs = s.regs := rfl
@[simp] theorem advance_dmem : s.advance.dmem = s.dmem := rfl
@[simp] theorem advance_fault : s.advance.fault = s.fault := rfl
@[simp] theorem advance_imem : s.advance.imem = s.imem := rfl
@[simp] theorem advance_dmemWords : s.advance.dmemWords = s.dmemWords := rfl
@[simp] theorem advance_policy : s.advance.policy = s.policy := rfl
end advance

section dmemWrite
variable (s : State) (ea v : Word)
@[simp] theorem dmemWrite_pc : (s.dmemWrite ea v).pc = s.pc := rfl
@[simp] theorem dmemWrite_regs : (s.dmemWrite ea v).regs = s.regs := rfl
@[simp] theorem dmemWrite_dmem : (s.dmemWrite ea v).dmem = s.dmem.write ea.toNat v := rfl
@[simp] theorem dmemWrite_fault : (s.dmemWrite ea v).fault = s.fault := rfl
@[simp] theorem dmemWrite_imem : (s.dmemWrite ea v).imem = s.imem := rfl
@[simp] theorem dmemWrite_dmemWords : (s.dmemWrite ea v).dmemWords = s.dmemWords := rfl
@[simp] theorem dmemWrite_policy : (s.dmemWrite ea v).policy = s.policy := rfl
end dmemWrite

section takeFault
variable (s : State) (k : FaultKind) (w a : Option Word)
@[simp] theorem takeFault_pc : (s.takeFault k w a).pc = s.pc := rfl
@[simp] theorem takeFault_regs : (s.takeFault k w a).regs = s.regs := rfl
@[simp] theorem takeFault_dmem : (s.takeFault k w a).dmem = s.dmem := rfl
@[simp] theorem takeFault_fault :
    (s.takeFault k w a).fault = some { kind := k, pc := s.pc, word := w, addr := a } := rfl
@[simp] theorem takeFault_imem : (s.takeFault k w a).imem = s.imem := rfl
@[simp] theorem takeFault_dmemWords : (s.takeFault k w a).dmemWords = s.dmemWords := rfl
@[simp] theorem takeFault_policy : (s.takeFault k w a).policy = s.policy := rfl
end takeFault

/-! `writeReg` is an if on the register number; each field but `regs` is the same in both branches. -/

section writeReg
variable (s : State) (r : RegIdx) (v : Word)
@[simp] theorem writeReg_pc : (s.writeReg r v).pc = s.pc := by unfold State.writeReg; split <;> rfl
@[simp] theorem writeReg_dmem : (s.writeReg r v).dmem = s.dmem := by unfold State.writeReg; split <;> rfl
@[simp] theorem writeReg_fault : (s.writeReg r v).fault = s.fault := by unfold State.writeReg; split <;> rfl
@[simp] theorem writeReg_imem : (s.writeReg r v).imem = s.imem := by unfold State.writeReg; split <;> rfl
@[simp] theorem writeReg_dmemWords : (s.writeReg r v).dmemWords = s.dmemWords := by
  unfold State.writeReg; split <;> rfl
@[simp] theorem writeReg_policy : (s.writeReg r v).policy = s.policy := by unfold State.writeReg; split <;> rfl
end writeReg

section loadNext
variable (s : State) (w : Word)
@[simp] theorem loadNext_pc : (s.loadNext w).pc = s.pc := rfl
@[simp] theorem loadNext_regs : (s.loadNext w).regs = s.regs := rfl
@[simp] theorem loadNext_dmem : (s.loadNext w).dmem = s.dmem := rfl
@[simp] theorem loadNext_fault : (s.loadNext w).fault = none := rfl
@[simp] theorem loadNext_imem : (s.loadNext w).imem = placeWord s.imem s.pc.toNat w := rfl
@[simp] theorem loadNext_dmemWords : (s.loadNext w).dmemWords = s.dmemWords := rfl
@[simp] theorem loadNext_policy : (s.loadNext w).policy = s.policy := rfl
end loadNext

end Sys2Proof.Machine
end

