-- ==== Sys2Proof/Laws/Ops.lean ====
section
/-!
SUPPORT. One lemma per shared operation, saying everything it can do.
-/

namespace Sys2Proof.Machine

/-! ## Registers -/

theorem readReg_congr {s t : State} (h : t.regs = s.regs) (r : RegIdx) : t.readReg r = s.readReg r := by
  simp only [State.readReg, h]

/-- A register write, said once (10_state.md R16, R17). -/
theorem readReg_writeReg (s : State) (d r : RegIdx) (v : Word) :
    (s.writeReg d v).readReg r = if r = d ∧ d ≠ 0#5 then v else s.readReg r := by
  unfold State.writeReg State.readReg
  by_cases hd : d = 0#5
  · simp [hd]
  · simp only [hd, if_false, Vector.getElem_set, BitVec.toNat_inj, ne_eq, not_false_eq_true, and_true]
    simp only [eq_comm]

@[simp] theorem writeReg_zero (s : State) (v : Word) : s.writeReg 0#5 v = s := rfl

@[simp] theorem readReg_setPc (s : State) (p : Word) (r : RegIdx) : (s.setPc p).readReg r = s.readReg r := rfl
@[simp] theorem readReg_advance (s : State) (r : RegIdx) : s.advance.readReg r = s.readReg r := rfl
@[simp] theorem readReg_dmemWrite (s : State) (ea v : Word) (r : RegIdx) :
    (s.dmemWrite ea v).readReg r = s.readReg r := rfl
@[simp] theorem readReg_takeFault (s : State) (k : FaultKind) (w a : Option Word) (r : RegIdx) :
    (s.takeFault k w a).readReg r = s.readReg r := rfl

/-! ## The ends of a cycle -/

/-- The write-back of a register result, said once. -/
theorem wroteReg_writeBack (s : State) (d : RegIdx) (v : Word) : s.WroteReg (s.writeBack d v) d v where
  pc := by simp [State.writeBack]
  written hd := by simp [State.writeBack, readReg_writeReg, hd]
  otherRegs r hr := by
    rw [State.writeBack, readReg_advance, readReg_writeReg, if_neg]
    rintro ⟨rfl, h⟩
    rcases hr with h' | h'
    · exact h h'
    · exact h' rfl
  memory a := by simp [State.writeBack]
  fault := by simp [State.writeBack]
  launch := ⟨by simp [State.writeBack], by simp [State.writeBack], by simp [State.writeBack]⟩

/-- The commit of a store, said once. -/
theorem storedCell_dmemWrite (s : State) (ea v : Word) :
    s.StoredCell (s.dmemWrite ea v).advance ea.toNat v where
  pc := rfl
  stored := by simp
  otherCells b hb := by simp [Memory.read_write_other _ _ hb]
  regs _ := rfl
  fault := rfl
  launch := ⟨rfl, rfl, rfl⟩

/-- A cycle that only moves the `pc`, said once. -/
theorem onlyPc_setPc (s : State) (p : Word) : s.OnlyPc (s.setPc p) p where
  pc := rfl
  regs _ := rfl
  memory _ := rfl
  fault := rfl
  launch := ⟨rfl, rfl, rfl⟩

theorem onlyPc_advance (s : State) : s.OnlyPc s.advance (s.pc + 1#32) := onlyPc_setPc s _

theorem sameLaunch_takeFault (s : State) (k : FaultKind) (w a : Option Word) :
    s.SameLaunch (s.takeFault k w a) := ⟨rfl, rfl, rfl⟩

/-! ## The ALU and the sequencer -/

/-- LUI's result: the immediate in the upper half, zeros below, since the sign extension is shifted out
(40_datapath.md R75). -/
theorem aluShl16_sext32 (imm : Half) : aluShl16 (sext32 imm) = imm ++ 0#16 := by
  unfold aluShl16 sext32
  apply BitVec.eq_of_getLsbD_eq
  intro j hj
  rw [BitVec.getLsbD_shiftLeft, BitVec.getLsbD_append, BitVec.getLsbD_signExtend]
  by_cases h : j < 16
  · simp [h]
  · simp [h, hj, show j - 16 < 16 by omega, show j - 16 < 32 by omega]

/-- The sequencer's choice for a branch, as an if on the operands (40_datapath.md R86). -/
theorem nextPc_eqFlag (pc a b immExt : Word) :
    nextPc pc (eqFlag a b) immExt = if a = b then pc + 1#32 + immExt else pc + 1#32 := by
  unfold nextPc eqFlag
  by_cases h : a = b <;> simp [h]

/-! ## Fetch -/

theorem fetch_eq_none (s : State) : s.fetch = none ↔ s.imem.length ≤ s.pc.toNat := by
  simp [State.fetch]

theorem fetch_congr {s t : State} (hi : t.imem = s.imem) (hp : t.pc = s.pc) : t.fetch = s.fetch := by
  simp only [State.fetch, hi, hp]

theorem dmemInRange_iff (s : State) (ea : Word) : s.dmemInRange ea = true ↔ ea.toNat < s.dmemWords := by
  simp [State.dmemInRange]

theorem dmemInRange_eq_false (s : State) (ea : Word) : s.dmemInRange ea = false ↔ s.dmemWords ≤ ea.toNat := by
  simp [State.dmemInRange]

/-- A placed word is the word at its index. -/
theorem getElem_placeWord (image : List Word) (n : Nat) (w : Word) : (placeWord image n w)[n]? = some w := by
  unfold placeWord
  split
  · next h => simp [h]
  · next h =>
    rw [List.getElem?_append_right (by simp; omega)]
    simp only [List.length_append, List.length_replicate]
    rw [show n - (image.length + (n - image.length)) = 0 by omega]
    rfl

theorem fetch_loadNext (s : State) (w : Word) : (s.loadNext w).fetch = some w :=
  getElem_placeWord s.imem s.pc.toNat w

end Sys2Proof.Machine
end

