-- ==== Sys2Proof/Laws/PerInstr.lean ====
section
/-!
SUPPORT. Per-instruction laws about the syntax: an instruction's word matches its own row of the opcode table.
-/

namespace Sys2Proof.Laws.EncodesToRow

/-- The encoding of an instruction matches its row's mask and pattern. -/
def Statement (i : Instr) : Prop := (rowOf i).Matches (encode i)

theorem add (rs rt rd : RegIdx) : Statement (.add rs rt rd) :=
  (maskR_iff _ funcAdd).2 ⟨fieldOp_encodeR .., fieldFunc_encodeR ..⟩

theorem and (rs rt rd : RegIdx) : Statement (.and rs rt rd) :=
  (maskR_iff _ funcAnd).2 ⟨fieldOp_encodeR .., fieldFunc_encodeR ..⟩

theorem slt (rs rt rd : RegIdx) : Statement (.slt rs rt rd) :=
  (maskR_iff _ funcSlt).2 ⟨fieldOp_encodeR .., fieldFunc_encodeR ..⟩

theorem addi (rs rt : RegIdx) (imm : Half) : Statement (.addi rs rt imm) := (maskI_iff _ opAddi).2 (fieldOp_encodeI ..)

theorem lui (rs rt : RegIdx) (imm : Half) : Statement (.lui rs rt imm) := (maskI_iff _ opLui).2 (fieldOp_encodeI ..)

theorem ori (rs rt : RegIdx) (imm : Half) : Statement (.ori rs rt imm) := (maskI_iff _ opOri).2 (fieldOp_encodeI ..)

theorem lw (rs rt : RegIdx) (imm : Half) : Statement (.lw rs rt imm) := (maskI_iff _ opLw).2 (fieldOp_encodeI ..)

theorem sw (rs rt : RegIdx) (imm : Half) : Statement (.sw rs rt imm) := (maskI_iff _ opSw).2 (fieldOp_encodeI ..)

theorem beq (rs rt : RegIdx) (imm : Half) : Statement (.beq rs rt imm) := (maskI_iff _ opBeq).2 (fieldOp_encodeI ..)

end Sys2Proof.Laws.EncodesToRow
end

