-- ==== Sys2Proof/Laws/Step.lean ====
section
/-!
SUPPORT. What an instruction and a step can do, said once each.
-/

namespace Sys2Proof.Machine

/-- An instruction that goes on (10_state.md R19): it writes one register, stores one word, or moves the `pc`. -/
theorem exec_next_cases {i : Instr} {s t : State} (h : exec i s = .next t) :
    (∃ d v, t = s.writeBack d v ∧ (∀ rs rt imm, i ≠ .sw rs rt imm) ∧ ∀ rs rt imm, i ≠ .beq rs rt imm) ∨
    (∃ rs rt imm, i = .sw rs rt imm ∧ s.dmemInRange (s.effectiveAddress rs imm) = true ∧
      t = (s.dmemWrite (s.effectiveAddress rs imm) (s.readReg rt)).advance) ∨
    (∃ rs rt imm, i = .beq rs rt imm ∧
      t = s.setPc (nextPc s.pc (eqFlag (s.readReg rs) (s.readReg rt)) (sext32 imm))) := by
  cases i with
  | add rs rt rd => cases h; exact .inl ⟨_, _, rfl, by simp, by simp⟩
  | and rs rt rd => cases h; exact .inl ⟨_, _, rfl, by simp, by simp⟩
  | slt rs rt rd => cases h; exact .inl ⟨_, _, rfl, by simp, by simp⟩
  | addi rs rt imm => cases h; exact .inl ⟨_, _, rfl, by simp, by simp⟩
  | lui rs rt imm => cases h; exact .inl ⟨_, _, rfl, by simp, by simp⟩
  | ori rs rt imm => cases h; exact .inl ⟨_, _, rfl, by simp, by simp⟩
  | lw rs rt imm =>
    simp only [exec, execLw] at h
    split at h
    · cases h; exact .inl ⟨_, _, rfl, by simp, by simp⟩
    · cases h
  | sw rs rt imm =>
    simp only [exec, execSw] at h
    split at h
    · next hr => cases h; exact .inr (.inl ⟨rs, rt, imm, rfl, hr, rfl⟩)
    · cases h
  | beq rs rt imm => cases h; exact .inr (.inr ⟨rs, rt, imm, rfl, rfl⟩)

/-- An instruction that takes a model fault (60_exceptions.md R108): LW or SW out of range. -/
theorem exec_fault_cases {i : Instr} {s : State} {f : Fault} (h : exec i s = .fault f) :
    ∃ rs rt imm, (i = .lw rs rt imm ∨ i = .sw rs rt imm) ∧ s.dmemInRange (s.effectiveAddress rs imm) = false ∧
      f = .addressOutOfRange (s.takeFault .addressOutOfRange (some (encode i)) (some (s.effectiveAddress rs imm))) := by
  cases i with
  | lw rs rt imm =>
    simp only [exec, execLw] at h
    split at h
    · cases h
    · next hr => cases h; exact ⟨rs, rt, imm, .inl rfl, by simpa using hr, rfl⟩
  | sw rs rt imm =>
    simp only [exec, execSw] at h
    split at h
    · cases h
    · next hr => cases h; exact ⟨rs, rt, imm, .inr rfl, by simpa using hr, rfl⟩
  | _ => cases h

/-- No instruction is refused. -/
theorem exec_not_refused (i : Instr) (s : State) (r : Refusal) : exec i s ≠ .refused r := by
  intro h
  cases i with
  | lw rs rt imm => simp only [exec, execLw] at h; split at h <;> cases h
  | sw rs rt imm => simp only [exec, execSw] at h; split at h <;> cases h
  | _ => cases h

theorem execWord_instr {w : Word} {i : Instr} (h : decode w = .instr i) (s : State) : execWord w s = exec i s := by
  simp only [execWord, h]

theorem execWord_unsupported {w : Word} {op func : Code} (h : decode w = .unsupported op func) (s : State) :
    execWord w s = execUnsupported w s := by
  simp only [execWord, h]

/-- A fault-free state's step is its fetched word's cycle. -/
theorem step_fetched {s : State} {w : Word} (hf : s.fault = none) (hw : s.fetch = some w) :
    step s = execWord w s := by
  simp only [step, hf, hw]

theorem step_faulted {s : State} {r : FaultRecord} (h : s.fault = some r) : step s = .fault (.halted r) := by
  simp only [step, h]

/-- A step that goes on, said once: the state was fault-free and the fetch in range, and either the fetched word is
unsupported under `Nop`, or it is an instruction and the step is its effect. -/
theorem step_next_cases {s t : State} (h : step s = .next t) :
    s.fault = none ∧ ∃ w, s.fetch = some w ∧
    ((∃ op func, decode w = .unsupported op func ∧ s.policy = .nop ∧ t = s.advance) ∨
     (∃ i, decode w = .instr i ∧ exec i s = .next t)) := by
  cases hf : s.fault with
  | some r => rw [step_faulted hf] at h; cases h
  | none =>
    cases hw : s.fetch with
    | none =>
      simp only [step, hf, hw, execFetchPastImage, State.raiseFetchOutOfRange] at h
      cases h
    | some w =>
      rw [step_fetched hf hw] at h
      refine ⟨rfl, w, rfl, ?_⟩
      cases hd : decode w with
      | instr i => exact .inr ⟨i, rfl, (execWord_instr hd s).symm.trans h⟩
      | unsupported op func =>
        rw [execWord_unsupported hd] at h
        unfold execUnsupported at h
        split at h
        · next hp => cases h; exact .inl ⟨op, func, rfl, hp, rfl⟩
        · cases h

/-- A step that stops, said once: the state had faulted before, or the fetch is past the image, or the fetched word is
unsupported under `Fault`, or its instruction takes a model fault. -/
theorem step_fault_cases {s : State} {f : Fault} (h : step s = .fault f) :
    (∃ r, s.fault = some r ∧ f = .halted r) ∨
    s.fault = none ∧
    ((s.fetch = none ∧ f = .fetchOutOfRange (s.takeFault .fetchOutOfRange none none)) ∨
     (∃ w, s.fetch = some w ∧
       ((∃ op func, decode w = .unsupported op func ∧ s.policy = .fault ∧
          f = .unsupportedOpcode (s.takeFault .unsupportedOpcode (some w) none)) ∨
        (∃ i, decode w = .instr i ∧ exec i s = .fault f)))) := by
  cases hf : s.fault with
  | some r => rw [step_faulted hf] at h; cases h; exact .inl ⟨r, rfl, rfl⟩
  | none =>
    refine .inr ⟨rfl, ?_⟩
    cases hw : s.fetch with
    | none =>
      simp only [step, hf, hw, execFetchPastImage, State.raiseFetchOutOfRange] at h
      cases h
      exact .inl ⟨rfl, rfl⟩
    | some w =>
      rw [step_fetched hf hw] at h
      refine .inr ⟨w, rfl, ?_⟩
      cases hd : decode w with
      | instr i => exact .inr ⟨i, rfl, (execWord_instr hd s).symm.trans h⟩
      | unsupported op func =>
        rw [execWord_unsupported hd] at h
        unfold execUnsupported at h
        split at h
        · cases h
        · next hp => cases h; exact .inl ⟨op, func, rfl, hp, rfl⟩

/-- The placed word is the one the next step runs. -/
theorem step_withFetchWord (s : State) (nbits w : Nat) :
    step (s.withFetchWord nbits w) = execWord (tableWord nbits w) (s.withFetchWord nbits w) :=
  step_fetched rfl (fetch_loadNext s (tableWord nbits w))

end Sys2Proof.Machine
end

