-- ==== Sys2Proof/Tests/Slice0.lean ====
section
/-!
SUPPORT. The model's own tests. Every expected value is the spec's: 95_test_vectors.md where a vector is named, else the
rule named. The last part gives, for every obligation with hypotheses, a state and operands that meet them.
-/

namespace Sys2Proof.Tests
open Sys2Proof.Machine

/-! ## Helpers -/

/-- The default launch with an image. -/
def boot (image : List Word) : State := State.launch { defaultLaunch with imem := image }

/-- The default launch with an image and register values. -/
def bootWith (image : List Word) (values : List (RegIdx × Word)) : State :=
  values.foldl (fun s p => s.writeReg p.1 p.2) (boot image)

/-- A launch under the policy `Fault`. -/
def bootStrict (image : List Word) : State := { boot image with policy := .fault }

/-- The next state of a step, if it goes on. -/
def after (s : State) : Option State :=
  match step s with
  | .next t => some t
  | .fault _ => none
  | .refused _ => none

/-- The record of the model fault a step takes, if it takes one. -/
def faultOf (s : State) : Option FaultRecord :=
  match step s with
  | .fault f => f.stateAfter.bind State.fault
  | .next _ => none
  | .refused _ => none

/-- A register after one step. -/
def regAfter (s : State) (r : RegIdx) : Option Word := (after s).map fun t => t.readReg r

/-- The `pc` after one step. -/
def pcAfter (s : State) : Option Word := (after s).map State.pc

/-- A data cell after one step. -/
def cellAfter (s : State) (a : Nat) : Option Word := (after s).map fun t => t.dmem.read a

/-! ## Well-formedness: one ill-formed term for each check, and the bounds -/

theorem test_wf_refuses_register_32 : (AsmInstr.add 32 0 0).wf = false := by decide
theorem test_wf_refuses_immediate_above : (AsmInstr.addi 1 0 65536).wf = false := by decide
theorem test_wf_refuses_immediate_below : (AsmInstr.lw 1 (-32769) 0).wf = false := by decide
theorem test_wf_accepts_bounds : (AsmInstr.ori 31 31 65535).wf = true ∧ (AsmInstr.beq 0 31 (-32768)).wf = true := by
  decide
theorem test_launch_refuses_no_memory : ({ defaultLaunch with dmemWords := 0 } : Launch).wf = false := by decide
theorem test_launch_refuses_too_large : ({ defaultLaunch with dmemWords := 2 ^ 32 + 1 } : Launch).wf = false := by
  decide
theorem test_launch_accepts_bounds : ({ defaultLaunch with dmemWords := 1 } : Launch).wf = true ∧
    ({ defaultLaunch with dmemWords := 2 ^ 32 } : Launch).wf = true := by decide

/-! ## Decoding: words written out bit by bit (op rs rt rd/imm func) from 30_encoding.md R50, R57 -/

theorem test_decode_add : decode 0b000000_00001_00010_00011_00000_100000#32 = .instr (.add 1 2 3) := by decide
theorem test_decode_and : decode 0b000000_00001_00010_00100_00000_100100#32 = .instr (.and 1 2 4) := by decide
theorem test_decode_slt : decode 0b000000_00010_00001_00011_00000_101010#32 = .instr (.slt 2 1 3) := by decide
theorem test_decode_addi : decode 0b001000_00000_00001_0000000000000101#32 = .instr (.addi 0 1 5) := by decide
theorem test_decode_lui : decode 0b001111_00101_00001_0001001000110100#32 = .instr (.lui 5 1 0x1234) := by decide
theorem test_decode_ori : decode 0b001101_00000_00010_1000000000000000#32 = .instr (.ori 0 2 0x8000) := by decide
theorem test_decode_lw : decode 0b100011_00010_00001_1111111111111111#32 = .instr (.lw 2 1 0xFFFF) := by decide
theorem test_decode_sw : decode 0b101011_00000_00011_0000000000000000#32 = .instr (.sw 0 3 0) := by decide
theorem test_decode_beq : decode 0b000100_00001_00010_0000000000000101#32 = .instr (.beq 1 2 5) := by decide

/-- V-DEC: every field of a word. -/
theorem test_fields : decodeFields 0x2021FFFF#32 =
    { op := 0x08, rs := 1, rt := 1, rd := 31, func := 0x3F, imm := 0xFFFF } := by decide
/-- V-DEC: bits [10:6] are no field. -/
theorem test_decode_ignores_shamt : decode 0x00221FE0#32 = .instr (.add 1 2 3) := by decide
/-- V-CTL: MIPS SUB, OR and J are unsupported. -/
theorem test_decode_unsupported : decode 0x00430822#32 = .unsupported 0 0x22 ∧
    decode 0x00430825#32 = .unsupported 0 0x25 ∧ decode 0x08000000#32 = .unsupported 2 0 := by decide
/-- The words of section 1 of the vectors, from the encoder. -/
theorem test_encode : encode (.add 1 2 3) = 0x00221820#32 ∧ encode (.sw 0 3 0) = 0xAC030000#32 ∧
    encode (.beq 0 0 2) = 0x10000002#32 := by decide

/-! ## The ALU (V-ALU) -/

theorem test_alu_slt_signed : aluSlt 0x80000000#32 0x7FFFFFFF#32 = 1#32 ∧ aluSlt 0x7FFFFFFF#32 0x80000000#32 = 0#32 ∧
    aluSlt 0x00000000#32 0xFFFFFFFF#32 = 0#32 ∧ aluSlt 5#32 5#32 = 0#32 := by decide
theorem test_alu_shl16 : aluShl16 0xFFFF8000#32 = 0x80000000#32 ∧ aluShl16 0x00001234#32 = 0x12340000#32 := by decide

/-! ## The instructions, one step each -/

/-- RR2: overflow wraps, with no trap. -/
theorem test_add_wraps : regAfter (bootWith [0x00221820#32] [(1, 0x7FFFFFFF), (2, 1)]) 3 = some 0x80000000#32 := by
  decide
/-- RR3: read before write. -/
theorem test_add_doubles : regAfter (bootWith [0x00210820#32] [(1, 3)]) 1 = some 6#32 := by decide
/-- RR6. -/
theorem test_and : regAfter (bootWith [0x00222024#32] [(1, 0x12345678), (2, 0xFFFF8000)]) 4 = some 0x12340000#32 := by
  decide
/-- RR9: a negative left operand. -/
theorem test_slt_negative :
    regAfter (bootWith [0x0041182A#32] [(1, 0x12345678), (2, 0xFFFF8000)]) 3 = some 1#32 := by decide
/-- RR10: the operands exchanged. -/
theorem test_slt_exchanged :
    regAfter (bootWith [0x0022182A#32] [(1, 0x12345678), (2, 0xFFFF8000), (3, 7)]) 3 = some 0#32 := by decide
/-- RI3: the immediate is sign-extended. -/
theorem test_addi_negative : regAfter (boot [0x20018000#32]) 1 = some 0xFFFF8000#32 := by decide
/-- RI5: a write to register 0 is suppressed. -/
theorem test_addi_register_zero :
    regAfter (boot [0x20000005#32]) 0 = some 0#32 ∧ pcAfter (boot [0x20000005#32]) = some 1#32 := by decide
/-- RI9: LUI ignores its `rs` field. -/
theorem test_lui_ignores_rs : regAfter (bootWith [0x3CA11234#32] [(5, 0xFFFFFFFF)]) 1 = some 0x12340000#32 := by
  decide
/-- RI8: the sign extension is shifted out. -/
theorem test_lui_all_ones : regAfter (boot [0x3C01FFFF#32]) 1 = some 0xFFFF0000#32 := by decide
/-- RI11: ORI sign-extends, unlike MIPS. -/
theorem test_ori_sign_extends : regAfter (boot [0x34028000#32]) 2 = some 0xFFFF8000#32 := by decide
/-- RI14. -/
theorem test_ori_low_half : regAfter (bootWith [0x34215678#32] [(1, 0x12340000)]) 1 = some 0x12345678#32 := by decide
/-- M4: the address is of the old base register, in words. -/
theorem test_lw_base_is_destination :
    regAfter { bootWith [0x8C210000#32] [(1, 3)] with dmem := [(3, 9)] } 1 = some 9#32 := by decide
/-- M6: `-1($0)` is out of range; nothing commits. -/
theorem test_lw_out_of_range : after (boot [0x8C01FFFF#32]) = none ∧ faultOf (boot [0x8C01FFFF#32]) =
    some ⟨.addressOutOfRange, 0, some 0x8C01FFFF#32, some 0xFFFFFFFF#32⟩ := by decide
/-- M7: base and data the same register. -/
theorem test_sw : cellAfter (bootWith [0xAC210000#32] [(1, 2)]) 2 = some 2#32 := by decide
/-- M9, M10: cell 16 is past 16 cells and inside 32. -/
theorem test_sw_bound : faultOf (bootWith [0xAC020010#32] [(2, 1)]) =
      some ⟨.addressOutOfRange, 0, some 0xAC020010#32, some 0x10#32⟩ ∧
    cellAfter { bootWith [0xAC020010#32] [(2, 1)] with dmemWords := 32 } 16 = some 1#32 := by decide
/-- B8: the flag compares the operands, not their sum. -/
theorem test_beq_operands : pcAfter (bootWith [0x10220003#32] [(1, 0x80000000), (2, 0x80000000)]) = some 4#32 ∧
    pcAfter (bootWith [0x10220003#32] [(1, 1), (2, 0xFFFFFFFF)]) = some 1#32 := by decide
/-- B5: a backward target wraps. -/
theorem test_beq_wraps : pcAfter (boot [0x10008000#32]) = some 0xFFFF8001#32 := by decide
/-- RR12: register 0 is not hard-wired. -/
theorem test_register_zero_seeded :
    regAfter (State.launch { defaultLaunch with imem := [0x00003820#32], rfInit := defaultRfInit.set 0 9 }) 7 =
      some 18#32 := by decide

/-! ## Unsupported words and faults -/

/-- U2: ANDI under `Nop`. -/
theorem test_unsupported_nop :
    pcAfter (boot [0x3006FFFF#32]) = some 1#32 ∧ regAfter (boot [0x3006FFFF#32]) 6 = some 0#32 := by decide
/-- F2. -/
theorem test_unsupported_strict : faultOf (bootStrict [0x3006FFFF#32]) =
    some ⟨.unsupportedOpcode, 0, some 0x3006FFFF#32, none⟩ := by decide
/-- F1: with no word to decode, the fetch fault comes first. -/
theorem test_fetch_fault_first : faultOf { bootStrict [0, 0] with pc := 2 } =
    some ⟨.fetchOutOfRange, 2, none, none⟩ := by decide
/-- F3: a faulted state has no step. -/
theorem test_faulted_state_has_no_step :
    after { boot [0x20010005#32] with fault := some ⟨.fetchOutOfRange, 0, none, none⟩ } = none := by decide
/-- R106: the reset state has an empty image. -/
theorem test_reset_fetch_faults : faultOf State.reset = some ⟨.fetchOutOfRange, 0, none, none⟩ := by decide

/-! ## The host's placed word -/

theorem test_table_word : decodeTableWord 32 0x20010005 = some (.addi 0 1 5) ∧ decodeTableWord 32 0 = none := by decide
theorem test_placed_word_runs : regAfter (State.reset.withFetchWord 32 0x20010005) 1 = some 5#32 := by decide
theorem test_placed_word_after_gap :
    ({ boot [] with pc := 2 } : State).withFetchWord 32 0x20010005 = { boot [0, 0, 0x20010005#32] with pc := 2 } := by
  decide

/-! ## Loader and assembler -/

/-- R36: the line `20010005`, and a lower-case digit. -/
theorem test_loader : loadImage ["20010005".toList, "ac030000".toList] = some [0x20010005#32, 0xAC030000#32] := by decide
/-- R128: both cases in one line. -/
theorem test_loader_case : parseLine "aBcDeF09".toList = some 0xABCDEF09#32 := by decide
/-- R128: a short line and a prefix. -/
theorem test_loader_refuses : loadImage ["2001005".toList] = none ∧ loadImage ["0x200100".toList] = none := by decide
/-- R65, R66: the forms of section 8 of the source, and both spellings of an immediate. -/
theorem test_assemble : (parseAsm "ADD $3,$1,$2".toList).bind assemble = some (.add 1 2 3) ∧
    (parseAsm "ADDI $1,$0,5".toList).bind assemble = some (.addi 0 1 5) ∧
    (parseAsm "LW $4,0($0)".toList).bind assemble = some (.lw 0 4 0) ∧
    (parseAsm "BEQ $0,$0,2".toList).bind assemble = some (.beq 0 0 2) ∧
    (parseAsm "ORI $2,$0,0x8000".toList).bind assemble = some (.ori 0 2 0x8000) ∧
    (parseAsm "ORI $2,$0,-32768".toList).bind assemble = some (.ori 0 2 0x8000) := by decide
/-- R65: a disassembled form and an unsupported word. -/
theorem test_disassemble : disassemble 0xAC030000#32 = "SW $3,0($0)" ∧ disassemble 0x3006FFFF#32 = ".word 0x3006FFFF" := by
  decide
/-- P3: the branch at index 5 to index 2. -/
theorem test_beq_operand : beqOperand 2 5 = -4 := by decide

/-! ## The control unit (V-CTL) -/

theorem test_control : controlRow 0x08 0x3F = some (immediateSignals .add) ∧ controlRow 0x04 0x20 = some beqSignals ∧
    controlRow 0x00 0x25 = none ∧ controlRow 0x3F 0x3F = none := by decide

/-! ## Witnesses: each obligation's hypotheses are met -/

/-- The model fault a step takes, if it takes one. -/
def reason (s : State) : Option Fault :=
  match step s with
  | .fault f => some f
  | .next _ => none
  | .refused _ => none

theorem exists_next {s : State} (P : State → Bool) (h : (after s).any P = true) :
    ∃ t, step s = .next t ∧ P t = true := by
  unfold after at h
  cases hs : step s with
  | next t => exact ⟨t, rfl, by simpa [hs] using h⟩
  | fault f => simp [hs] at h
  | refused r => simp [hs] at h

theorem exists_fault {s : State} (P : Fault → Bool) (h : (reason s).any P = true) :
    ∃ f, step s = .fault f ∧ P f = true := by
  unfold reason at h
  cases hs : step s with
  | next t => simp [hs] at h
  | fault f => exact ⟨f, rfl, by simpa [hs] using h⟩
  | refused r => simp [hs] at h

/-- A step that goes on and one that takes a model fault, for the statements about what a cycle leaves. -/
theorem witness_leaves : (∃ t, leaves (step (boot [0xAC030000#32])) t) ∧ (∃ t, leaves (step State.reset) t) := by
  constructor
  · obtain ⟨t, h, _⟩ := exists_next (s := boot [0xAC030000#32]) (fun _ => true) (by decide)
    exact ⟨t, by rw [h]; rfl⟩
  · obtain ⟨f, h, ht⟩ := exists_fault (s := State.reset) (fun f => f.stateAfter.isSome) (by decide)
    obtain ⟨t, ht⟩ := Option.isSome_iff_exists.1 ht
    exact ⟨t, by rw [h]; exact ht⟩

theorem witness_LaunchStartsAtZeroWithZeroMemory :
    ({ defaultLaunch with imem := [0x20010005#32] } : Launch).imem = 0x20010005#32 :: [] := rfl

theorem witness_LaunchMeetsTheInvariant : defaultLaunch.wf = true ∧
    ({ defaultLaunch with dmemWords := 1 } : Launch).wf = true ∧
    ({ defaultLaunch with dmemWords := 2 ^ 32 } : Launch).wf = true := by decide

theorem witness_EncodeOfDecodeIsTheWord : decode 0x00221FE0#32 = .instr (.add 1 2 3) ∧ fieldOp 0x00221FE0#32 = 0x00#6 ∧
    decode 0x8C41FFFF#32 = .instr (.lw 2 1 0xFFFF) ∧ fieldOp 0x8C41FFFF#32 ≠ 0x00#6 := by decide

theorem witness_UnusedRFormatBitsAreIgnored :
    fieldOp 0x00221FE0#32 = 0x00#6 ∧ decode 0x00221FE0#32 = .instr (.add 1 2 3) := by decide

theorem witness_WordMatchesAtMostOneRow : rowAdd ∈ opcodeTable ∧ rowAdd.Matches 0x00221820#32 ∧
    decode 0x00221820#32 = .instr (.add 1 2 3) := by decide

/-- The hypotheses of every assembler clause, at both ends of the range. -/
theorem witness_assembler_range : (-32768 : Int) ≤ -32768 ∧ (-32768 : Int) ≤ 65535 ∧ (65535 : Int) ≤ 65535 := by decide

theorem witness_OriOrsTheSignExtendedImmediate : (2 : RegIdx) ≠ 0#5 ∧ (0x8000#16).msb = true ∧ (0x7FFF#16).msb = false := by
  decide

/-- The last cell and the first past it. -/
theorem witness_LwLoadsTheWordOrFaults : decode 0x8C010010#32 = .instr (.lw 0 1 16) ∧
    ((boot []).effectiveAddress 0 15).toNat < (boot []).dmemWords ∧
    (boot []).dmemWords ≤ ((boot []).effectiveAddress 0 16).toNat := by decide

/-- The first cell and the highest address. -/
theorem witness_SwStoresTheWordOrFaults : decode 0xAC01FFFF#32 = .instr (.sw 0 1 0xFFFF) ∧
    ((boot []).effectiveAddress 0 0).toNat < (boot []).dmemWords ∧
    (boot []).dmemWords ≤ ((boot []).effectiveAddress 0 0xFFFF).toNat := by decide

theorem witness_StepRunsTheDecodedInstruction :
    (boot [0x20010005#32]).fault = none ∧ (boot [0x20010005#32]).fetch = some 0x20010005#32 ∧
    decode 0x20010005#32 = .instr (.addi 0 1 5) ∧
    (boot [0x3006FFFF#32]).fault = none ∧ (boot [0x3006FFFF#32]).fetch = some 0x3006FFFF#32 ∧
    decode 0x3006FFFF#32 = .unsupported 0x0C 0x3F := by decide

theorem witness_UnsupportedWordFollowsThePolicy :
    (boot [0#32]).fault = none ∧ (boot [0#32]).fetch = some 0#32 ∧ controlRow (fieldOp 0#32) (fieldFunc 0#32) = none ∧
    (boot [0#32]).policy = .nop ∧ (bootStrict [0#32]).fault = none ∧ (bootStrict [0#32]).fetch = some 0#32 ∧
    (bootStrict [0#32]).policy = .fault := by decide

/-- The clause of the fault at `pc = N`; the other clause by running past the end and by a taken branch. -/
theorem witness_FetchPastTheImageFaults :
    ({ boot [0#32] with pc := 1 } : State).fault = none ∧
    ({ boot [0#32] with pc := 1 } : State).imem.length ≤ ({ boot [0#32] with pc := 1 } : State).pc.toNat ∧
    (∃ t, step (boot [0x20010005#32]) = .next t ∧ (boot [0x20010005#32]).pc.toNat < (boot [0x20010005#32]).imem.length ∧
      t.imem.length ≤ t.pc.toNat ∧ t.pc = 1) ∧
    (∃ t, step (boot [0x10000002#32]) = .next t ∧ (boot [0x10000002#32]).pc.toNat < (boot [0x10000002#32]).imem.length ∧
      t.imem.length ≤ t.pc.toNat ∧ t.pc = 3) := by
  refine ⟨rfl, by decide, ?_, ?_⟩
  · obtain ⟨t, h, hp⟩ := exists_next (s := boot [0x20010005#32])
      (fun t => decide (t.imem.length ≤ t.pc.toNat ∧ t.pc = 1)) (by decide)
    exact ⟨t, h, by decide, of_decide_eq_true hp⟩
  · obtain ⟨t, h, hp⟩ := exists_next (s := boot [0x10000002#32])
      (fun t => decide (t.imem.length ≤ t.pc.toNat ∧ t.pc = 3)) (by decide)
    exact ⟨t, h, by decide, of_decide_eq_true hp⟩

/-- Cell 16 of 16, the first out of range, by LW and by SW; and a step that takes the fault. -/
theorem witness_OutOfRangeAccessFaults :
    (boot [0x8C010010#32]).fault = none ∧ (boot [0x8C010010#32]).fetch = some 0x8C010010#32 ∧
    decode 0x8C010010#32 = .instr (.lw 0 1 16) ∧ decode 0xAC010010#32 = .instr (.sw 0 1 16) ∧
    (boot [0x8C010010#32]).dmemWords ≤ ((boot [0x8C010010#32]).readReg 0 + (16 : Half).signExtend 32).toNat ∧
    faultOf (boot [0x8C010010#32]) = some ⟨.addressOutOfRange, 0, some 0x8C010010#32, some 16⟩ := by decide

/-- A step that takes a fault, a state that has taken one, and a step that goes on. -/
theorem witness_ModelFaultCommitsNothing :
    (∃ f, step State.reset = .fault f ∧ f.stateAfter.isSome = true) ∧
    ({ boot [] with fault := some ⟨.fetchOutOfRange, 0, none, none⟩ } : State).fault =
      some ⟨.fetchOutOfRange, 0, none, none⟩ ∧
    ∃ t, step (boot [0x20010005#32]) = .next t ∧ true = true :=
  ⟨exists_fault _ (by decide), rfl, exists_next (fun _ => true) (by decide)⟩

/-- Each of the three faults is taken by some fault-free state, and an unsupported word exists. -/
theorem witness_FaultOrderAndContents : State.reset.fault = none ∧
    (reason State.reset).any (fun f => match f with | .fetchOutOfRange _ => true | _ => false) = true ∧
    (reason (bootStrict [0#32])).any (fun f => match f with | .unsupportedOpcode _ => true | _ => false) = true ∧
    (reason (boot [0x8C010010#32])).any (fun f => match f with | .addressOutOfRange _ => true | _ => false) = true ∧
    isUnsupported 0#32 = true := by decide

/-- A taken branch, one not taken, and another instruction. -/
theorem witness_OnlyATakenBranchRedirects :
    pcAfter (boot [0x10000002#32]) = some 3 ∧ decode 0x10000002#32 = .instr (.beq 0 0 2) ∧
    pcAfter (bootWith [0x10220005#32] [(1, 7), (2, 8)]) = some 1 ∧ decode 0x10220005#32 = .instr (.beq 1 2 5) ∧
    pcAfter (boot [0x20010005#32]) = some 1 ∧ decode 0x20010005#32 = .instr (.addi 0 1 5) := by decide

/-- A step that changes a cell; and a word that is not LW, whose cycle goes on. -/
theorem witness_OnlyLoadsReadAndOnlyStoresWriteMemory :
    (∃ t, leaves (step (bootWith [0xAC210000#32] [(1, 2)])) t ∧
      t.dmem.read 2 ≠ (bootWith [0xAC210000#32] [(1, 2)]).dmem.read 2) ∧
    (∀ rs rt imm, decode 0x20010005#32 ≠ .instr (.lw rs rt imm)) ∧ ∃ t, leaves (execWord 0x20010005#32 (boot [])) t := by
  refine ⟨?_, fun rs rt imm h => ?_, _, rfl⟩
  · obtain ⟨t, h, hp⟩ := exists_next (s := bootWith [0xAC210000#32] [(1, 2)])
      (fun t => decide (t.dmem.read 2 ≠ (bootWith [0xAC210000#32] [(1, 2)]).dmem.read 2)) (by decide)
    exact ⟨t, by rw [h]; rfl, of_decide_eq_true hp⟩
  · rw [show decode 0x20010005#32 = .instr (.addi 0 1 5) by decide] at h
    cases h

/-- A store to the last cell, then loads of it and of another cell. -/
theorem witness_LoadAfterStoreReturnsTheValue : ∃ t, exec (.sw 0 1 15) (bootWith [] [(1, 7)]) = .next t ∧
    (2 : RegIdx) ≠ 0#5 ∧ (t.effectiveAddress 0 15).toNat < t.dmemWords ∧
    t.effectiveAddress 0 15 = (bootWith [] [(1, 7)]).effectiveAddress 0 15 ∧
    (t.effectiveAddress 0 0).toNat < t.dmemWords ∧
    t.effectiveAddress 0 0 ≠ (bootWith [] [(1, 7)]).effectiveAddress 0 15 :=
  ⟨_, rfl, by decide, by decide, by decide, by decide, by decide⟩

theorem witness_AtMostOneWriteACycle :
    (∃ t, leaves (step (boot [0x20010005#32])) t ∧ t.readReg 1 ≠ (boot [0x20010005#32]).readReg 1) ∧
    ∃ t, leaves (step (bootWith [0xAC210000#32] [(1, 2)])) t ∧
      t.dmem.read 2 ≠ (bootWith [0xAC210000#32] [(1, 2)]).dmem.read 2 := by
  refine ⟨?_, witness_OnlyLoadsReadAndOnlyStoresWriteMemory.1⟩
  obtain ⟨t, h, hp⟩ := exists_next (s := boot [0x20010005#32])
    (fun t => decide (t.readReg 1 ≠ (boot [0x20010005#32]).readReg 1)) (by decide)
  exact ⟨t, by rw [h]; rfl, of_decide_eq_true hp⟩

/-- One memory reached by two orders of writing, neither empty. -/
theorem witness_CanonicalMemoriesAreEqualData :
    (Memory.write (Memory.write [] 3 5#32) 1 7#32).wf = true ∧ (Memory.write (Memory.write [] 1 7#32) 3 5#32).wf = true ∧
    ∀ a, (Memory.write (Memory.write [] 3 5#32) 1 7#32).read a = (Memory.write (Memory.write [] 1 7#32) 3 5#32).read a :=
  ⟨by decide, by decide, fun _ => rfl⟩

/-- A state with data in memory that goes on, and one whose step takes a fault. -/
theorem witness_StepKeepsTheInvariant :
    ({ boot [0xAC030000#32] with dmem := [(15, 1)] } : State).inv = true ∧ State.reset.inv = true ∧
    (∃ t, leaves (step { boot [0xAC030000#32] with dmem := [(15, 1)] }) t) ∧ ∃ t, leaves (step State.reset) t := by
  refine ⟨by decide, by decide, ?_, witness_leaves.2⟩
  obtain ⟨t, h, _⟩ := exists_next (s := { boot [0xAC030000#32] with dmem := [(15, 1)] }) (fun _ => true) (by decide)
  exact ⟨t, by rw [h]; rfl⟩

theorem witness_RunsMeetTheInvariant : ({ defaultLaunch with imem := [0x20010005#32] } : Launch).wf = true := by decide

/-- Reset has no image: it is safe for no step and takes a fault in the first; a loaded program is safe for one. -/
theorem witness_RunStopsAtTheFirstFault : (boot [0x20010005#32]).SafeFor 1 ∧ State.reset.SafeFor 0 ∧
    ¬ State.reset.SafeFor 1 ∧ (State.reset.run 1).fault = some ⟨.fetchOutOfRange, 0, none, none⟩ := by
  unfold State.SafeFor
  decide

theorem witness_LoaderReadsTheImage :
    loadImage ["20010005".toList] = some [0x20010005#32] ∧ defaultLaunch.wf = true ∧
    parseLine "2001005".toList = none ∧ (bootImage ["20010005".toList] defaultLaunch).isSome = true := by decide

theorem witness_AssemblerAcceptsAndRoundTrips : ∀ rs rt imm, Instr.add 1 2 3 ≠ .lui rs rt imm := by
  intro rs rt imm h
  cases h

/-- A word that is no LUI, a LUI with a nonzero `rs`, and an unsupported word. -/
theorem witness_PrintedTextReadsBack : decode 0xAC030000#32 = .instr (.sw 0 3 0) ∧
    (∀ rs rt imm, Instr.sw 0 3 0 ≠ .lui rs rt imm) ∧ decode 0x3CA11234#32 = .instr (.lui 5 1 0x1234) ∧
    decode 0x3006FFFF#32 = .unsupported 0x0C 0x3F :=
  ⟨by decide, by simp, by decide, by decide⟩

end Sys2Proof.Tests
end

/-!
PROOFS. What a step leaves and a run keeps, and the statements of 10_state.md: register 0 and the program counter.
-/

namespace Sys2Proof.Machine

/-! ## What a step leaves, and what every run keeps -/

/-- The state a step leaves is its next state, or the start-of-cycle state with a fault record set
(60_exceptions.md R109). -/
theorem step_leaves_cases {s t : State} (h : leaves (step s) t) :
    step s = .next t ∨ ∃ kind word addr, t = s.takeFault kind word addr := by
  cases hs : step s with
  | next t' =>
    rw [hs] at h
    exact .inl (congrArg Host.Outcome.next h)
  | refused r =>
    rw [hs] at h
    exact h.elim
  | fault f =>
    rw [hs] at h
    right
    rcases step_fault_cases hs with ⟨_, _, rfl⟩ | ⟨_, ⟨_, rfl⟩ | ⟨w, _, ⟨_, _, _, _, rfl⟩ | ⟨i, _, hi⟩⟩⟩
    · cases h
    · cases h; exact ⟨_, _, _, rfl⟩
    · cases h; exact ⟨_, _, _, rfl⟩
    · obtain ⟨_, _, _, _, _, rfl⟩ := exec_fault_cases hi
      cases h; exact ⟨_, _, _, rfl⟩

/-- Induction along a run: what every state a step leaves inherits, every state of the run has. -/
theorem run_induction {P : State → Prop} (hstep : ∀ s t, P s → leaves (step s) t → P t) {s : State} (hs : P s)
    (k : Nat) : P (s.run k) := by
  induction k generalizing s with
  | zero => exact hs
  | succ k ih =>
    unfold State.run
    split
    next t ht => exact ih (hstep s t hs (by rw [ht]; rfl))
    next f hf =>
      cases ha : f.stateAfter with
      | none => exact hs
      | some t => exact hstep s t hs (by rw [hf]; exact ha)
    next => exact hs

/-! ## Register 0 (10_state.md R17) -/

theorem exec_next_readReg_zero {i : Instr} {s t : State} (h : exec i s = .next t) :
    t.readReg 0#5 = s.readReg 0#5 := by
  rcases exec_next_cases h with ⟨d, v, rfl, _, _⟩ | ⟨rs, rt, imm, _, _, rfl⟩ | ⟨rs, rt, imm, _, rfl⟩
  · exact (wroteReg_writeBack s d v).otherRegs 0#5 (.inl rfl)
  · exact (storedCell_dmemWrite s _ _).regs 0#5
  · exact (onlyPc_setPc s _).regs 0#5

theorem step_leaves_readReg_zero {s t : State} (h : leaves (step s) t) : t.readReg 0#5 = s.readReg 0#5 := by
  rcases step_leaves_cases h with hn | ⟨kind, word, addr, rfl⟩
  · obtain ⟨_, w, _, ⟨_, _, _, _, rfl⟩ | ⟨i, _, hi⟩⟩ := step_next_cases hn
    · exact readReg_advance s 0#5
    · exact exec_next_readReg_zero hi
  · exact readReg_takeFault s kind word addr 0#5

theorem run_launch_readReg_zero (l : Launch) (k : Nat) : ((State.launch l).run k).readReg 0#5 = l.rfInit[0] :=
  run_induction (P := fun s => s.readReg 0#5 = l.rfInit[0])
    (fun _ _ hs ht => (step_leaves_readReg_zero ht).trans hs) rfl k

theorem run_reset_readReg_zero (k : Nat) : (State.reset.run k).readReg 0#5 = 0#32 :=
  have hdefault : defaultLaunch.rfInit[0] = 0#32 := rfl
  (run_launch_readReg_zero defaultLaunch k).trans hdefault

/-- Settles O35: each step keeps register 0, so by induction along the run it holds what the launch put there. -/
theorem registerZeroKeepsItsLaunchValue : Obligations.RegisterZeroKeepsItsLaunchValue :=
  ⟨writeReg_zero, fun _ => rfl, fun _ _ => step_leaves_readReg_zero, run_launch_readReg_zero,
    run_reset_readReg_zero⟩

/-! ## The program counter (10_state.md R21) -/

/-- The next `pc` of an instruction: a BEQ's depends on its operands, any other's is `pc + 1`. -/
theorem exec_next_pc {i : Instr} {s t : State} (h : exec i s = .next t) :
    (∃ rs rt imm, i = .beq rs rt imm ∧
      t.pc = if s.readReg rs = s.readReg rt then s.pc + 1#32 + sext32 imm else s.pc + 1#32) ∨
    ((∀ rs rt imm, i ≠ .beq rs rt imm) ∧ t.pc = s.pc + 1#32) := by
  rcases exec_next_cases h with ⟨d, v, rfl, _, hbeq⟩ | ⟨rs, rt, imm, rfl, _, rfl⟩ | ⟨rs, rt, imm, rfl, rfl⟩
  · exact .inr ⟨hbeq, (wroteReg_writeBack s d v).pc⟩
  · exact .inr ⟨by simp, (storedCell_dmemWrite s _ _).pc⟩
  · exact .inl ⟨rs, rt, imm, rfl, nextPc_eqFlag ..⟩

/-- Settles O27: a word that goes on is an unsupported one, which only advances, or an instruction, whose next `pc`
`exec_next_pc` gives. -/
theorem onlyATakenBranchRedirects : Obligations.OnlyATakenBranchRedirects := by
  intro s t w h hw
  obtain ⟨_, w', hw', hcases⟩ := step_next_cases h
  obtain rfl : w' = w := Option.some.inj (hw'.symm.trans hw)
  rcases hcases with ⟨op, func, hd, _, rfl⟩ | ⟨i, hd, hi⟩
  · exact ⟨fun rs rt imm hbeq => (nomatch hd.symm.trans hbeq), fun _ => rfl⟩
  · rcases exec_next_pc hi with ⟨rs, rt, imm, rfl, hpc⟩ | ⟨hne, hpc⟩
    · refine ⟨fun rs' rt' imm' hbeq => ?_, fun hne => absurd hd (hne rs rt imm)⟩
      cases hd.symm.trans hbeq
      exact hpc
    · exact ⟨fun rs rt imm hbeq => absurd (Decoded.instr.inj (hd.symm.trans hbeq)) (hne rs rt imm), fun _ => hpc⟩

end Sys2Proof.Machine

/-!
PROOFS. The statements of 20_memory.md: what is fixed for the run, the range check of a data access, and which cycles read
or write the data memory.
-/

namespace Sys2Proof.Machine

/-! ## The launch parameters (20_memory.md R46, 70 R125) -/

theorem State.SameLaunch.refl (s : State) : s.SameLaunch s := ⟨rfl, rfl, rfl⟩

theorem State.SameLaunch.trans {s t u : State} (h : s.SameLaunch t) (h' : t.SameLaunch u) : s.SameLaunch u :=
  ⟨h'.imem.trans h.imem, h'.dmemWords.trans h.dmemWords, h'.policy.trans h.policy⟩

theorem exec_next_sameLaunch {i : Instr} {s t : State} (h : exec i s = .next t) : s.SameLaunch t := by
  rcases exec_next_cases h with ⟨d, v, rfl, _, _⟩ | ⟨rs, rt, imm, _, _, rfl⟩ | ⟨rs, rt, imm, _, rfl⟩
  · exact (wroteReg_writeBack s d v).launch
  · exact (storedCell_dmemWrite s _ _).launch
  · exact (onlyPc_setPc s _).launch

theorem step_leaves_sameLaunch {s t : State} (h : leaves (step s) t) : s.SameLaunch t := by
  rcases step_leaves_cases h with hn | ⟨kind, word, addr, rfl⟩
  · obtain ⟨_, w, _, ⟨_, _, _, _, rfl⟩ | ⟨i, _, hi⟩⟩ := step_next_cases hn
    · exact (onlyPc_advance s).launch
    · exact exec_next_sameLaunch hi
  · exact sameLaunch_takeFault s kind word addr

theorem run_sameLaunch (s : State) (k : Nat) : s.SameLaunch (s.run k) :=
  run_induction (P := s.SameLaunch) (fun _ _ hs ht => hs.trans (step_leaves_sameLaunch ht)) (.refl s) k

/-- Settles O36: each step keeps the launch parameters, so a run does, and a fetch reads only the image and the `pc`. -/
theorem launchParametersAreFixed : Obligations.LaunchParametersAreFixed :=
  ⟨fun _ => ⟨rfl, rfl, rfl⟩, fun _ _ => step_leaves_sameLaunch,
    fun _ _ _ h => fetch_congr (step_leaves_sameLaunch h).imem rfl, fun l => run_sameLaunch (.launch l)⟩

/-! ## The range check (20_memory.md R34, 60_exceptions.md R108) -/

/-- An LW or SW of a cell that does not exist takes the model fault. -/
theorem exec_access_outOfRange {i : Instr} {rs rt : RegIdx} {imm : Half} {s : State}
    (hi : i = .lw rs rt imm ∨ i = .sw rs rt imm) (hr : s.dmemInRange (s.effectiveAddress rs imm) = false) :
    exec i s = s.raiseAddressOutOfRange (encode i) (s.effectiveAddress rs imm) := by
  rcases hi with rfl | rfl
  · simp only [exec, execLw, hr, Bool.false_eq_true, if_false]
  · simp only [exec, execSw, hr, Bool.false_eq_true, if_false]

/-- No word with `op = 0` is an LW or SW. -/
theorem fieldOp_of_decode_access {w : Word} {i : Instr} {rs rt : RegIdx} {imm : Half} (hd : decode w = .instr i)
    (hi : i = .lw rs rt imm ∨ i = .sw rs rt imm) : fieldOp w ≠ opRFormat := by
  intro hop
  rw [decode, instrOf, if_pos hop] at hd
  rcases hi with rfl | rfl
  · split_ifs at hd <;> cases hd
  · split_ifs at hd <;> cases hd

/-- The word an LW or SW records is the fetched one, every bit of it (entry 17). -/
theorem encode_of_decode_access {w : Word} {i : Instr} {rs rt : RegIdx} {imm : Half} (hd : decode w = .instr i)
    (hi : i = .lw rs rt imm ∨ i = .sw rs rt imm) : encode i = w :=
  encode_of_decode_I hd (fieldOp_of_decode_access hd hi)

/-- Settles O23: out of range, the instruction's outcome is the fault, and it records the fetched word; the other ways to
stop are other faults. -/
theorem outOfRangeAccessFaults : Obligations.OutOfRangeAccessFaults := by
  refine ⟨fun s w i rs rt imm hf hw hd hi hr => ?_, fun s t h => ?_⟩
  · have hr : s.dmemInRange (s.effectiveAddress rs imm) = false := (dmemInRange_eq_false s _).2 hr
    rw [step_fetched hf hw, execWord_instr hd, exec_access_outOfRange hi hr, encode_of_decode_access hd hi]
    rfl
  · rcases step_fault_cases h with ⟨_, _, hne⟩ | ⟨_, ⟨_, hne⟩ | ⟨w, hw, ⟨_, _, _, _, hne⟩ | ⟨i, hd, hi⟩⟩⟩
    · cases hne
    · cases hne
    · cases hne
    · obtain ⟨rs, rt, imm, hacc, hr, _⟩ := exec_fault_cases hi
      exact ⟨w, i, rs, rt, imm, hw, hd, hacc, (dmemInRange_eq_false s _).1 hr⟩

/-! ## Who writes the data memory, and who reads it (20_memory.md R41) -/

/-- An instruction that changes a cell is an SW to it. -/
theorem exec_next_changed_cell {i : Instr} {s t : State} {a : Nat} (h : exec i s = .next t)
    (ha : t.dmem.read a ≠ s.dmem.read a) :
    ∃ rs rt imm, i = .sw rs rt imm ∧ a = (s.effectiveAddress rs imm).toNat := by
  rcases exec_next_cases h with ⟨d, v, rfl, _, _⟩ | ⟨rs, rt, imm, rfl, _, rfl⟩ | ⟨rs, rt, imm, _, rfl⟩
  · exact absurd ((wroteReg_writeBack s d v).memory a) ha
  · exact ⟨rs, rt, imm, rfl, not_imp_comm.1 ((storedCell_dmemWrite s _ _).otherCells a) ha⟩
  · exact absurd rfl ha

/-- A step that changes a cell ran an SW to it. -/
theorem step_leaves_changed_cell {s t : State} {a : Nat} (h : leaves (step s) t)
    (ha : t.dmem.read a ≠ s.dmem.read a) :
    ∃ w rs rt imm, s.fetch = some w ∧ decode w = .instr (.sw rs rt imm) ∧
      a = (s.effectiveAddress rs imm).toNat := by
  rcases step_leaves_cases h with hn | ⟨kind, word, addr, rfl⟩
  · obtain ⟨_, w, hw, ⟨_, _, _, _, rfl⟩ | ⟨i, hd, hi⟩⟩ := step_next_cases hn
    · exact absurd rfl ha
    · obtain ⟨rs, rt, imm, rfl, hea⟩ := exec_next_changed_cell hi ha
      exact ⟨w, rs, rt, imm, hw, hd, hea⟩
  · exact absurd rfl ha

/-- The state with another data memory. -/
def State.withMemory (s : State) (m : Memory) : State := { s with dmem := m }

@[simp] theorem withMemory_policy (s : State) (m : Memory) : (s.withMemory m).policy = s.policy := rfl

/-- An SW of a cell that exists stores the word. -/
theorem exec_sw_inRange {s : State} {rs rt : RegIdx} {imm : Half}
    (hr : s.dmemInRange (s.effectiveAddress rs imm) = true) :
    exec (.sw rs rt imm) s = .next (s.dmemWrite (s.effectiveAddress rs imm) (s.readReg rt)).advance :=
  if_pos hr

theorem writeBack_withMemory (s : State) (m : Memory) (d : RegIdx) (v : Word) :
    (s.withMemory m).writeBack d v = (s.writeBack d v).withMemory m := by
  unfold State.writeBack State.writeReg
  split
  · rfl
  · rfl

/-- Whatever the data memory holds, an instruction but LW leaves the same state up to that memory. -/
theorem exec_leaves_withMemory {i : Instr} {s t : State} (hlw : ∀ rs rt imm, i ≠ .lw rs rt imm) (m : Memory)
    (h : leaves (exec i s) t) : ∃ m', leaves (exec i (s.withMemory m)) (t.withMemory m') := by
  cases i with
  | lw rs rt imm => exact absurd rfl (hlw rs rt imm)
  | sw rs rt imm =>
    cases hr : s.dmemInRange (s.effectiveAddress rs imm) with
    | false =>
      rw [exec_access_outOfRange (.inr rfl) hr] at h
      cases h
      refine ⟨m, ?_⟩
      rw [exec_access_outOfRange (s := s.withMemory m) (.inr rfl) hr]
      rfl
    | true =>
      rw [exec_sw_inRange hr] at h
      cases h
      refine ⟨m.write (s.effectiveAddress rs imm).toNat (s.readReg rt), ?_⟩
      rw [exec_sw_inRange (s := s.withMemory m) hr]
      rfl
  | beq rs rt imm => cases h; exact ⟨m, rfl⟩
  | _ => cases h; exact ⟨m, writeBack_withMemory s m _ _⟩

/-- So does an unsupported word. -/
theorem execUnsupported_leaves_withMemory {w : Word} {s t : State} (m : Memory) (h : leaves (execUnsupported w s) t) :
    leaves (execUnsupported w (s.withMemory m)) (t.withMemory m) := by
  cases hp : s.policy with
  | nop =>
    simp only [execUnsupported, withMemory_policy, hp] at h ⊢
    cases h
    rfl
  | fault =>
    simp only [execUnsupported, withMemory_policy, hp] at h ⊢
    cases h
    rfl

/-- So does every word's cycle but an LW's. -/
theorem execWord_leaves_withMemory {w : Word} {s t : State} (hlw : ∀ rs rt imm, decode w ≠ .instr (.lw rs rt imm))
    (m : Memory) (h : leaves (execWord w s) t) : ∃ m', leaves (execWord w (s.withMemory m)) (t.withMemory m') := by
  cases hd : decode w with
  | instr i =>
    rw [execWord_instr hd] at h ⊢
    exact exec_leaves_withMemory (fun rs rt imm hi => hlw rs rt imm (hi ▸ hd)) m h
  | unsupported op func =>
    rw [execWord_unsupported hd] at h ⊢
    exact ⟨m, execUnsupported_leaves_withMemory m h⟩

/-- Settles O28: over another data memory the same cycle leaves `t` with some data memory in place of its own. -/
theorem onlyLoadsReadAndOnlyStoresWriteMemory : Obligations.OnlyLoadsReadAndOnlyStoresWriteMemory := by
  refine ⟨fun _ _ _ => step_leaves_changed_cell, fun w s t m hlw h => ?_⟩
  obtain ⟨m', ht⟩ := execWord_leaves_withMemory hlw m h
  exact ⟨t.withMemory m', ht, rfl, rfl, rfl⟩

end Sys2Proof.Machine

/-!
PROOFS. The statements of 30_encoding.md: the bits of an R-format word that no rule reads, and the invariants of the
control table.
-/

namespace Sys2Proof.Machine

/-! ## Bits [10:6] of an R-format word (30_encoding.md R51) -/

/-- Under `op = 0` no instruction takes the immediate, the only field that overlaps bits [10:6]. -/
theorem instrOf_rFormat_imm (func : Code) (rs rt rd : RegIdx) (imm imm' : Half) :
    instrOf opRFormat func rs rt rd imm = instrOf opRFormat func rs rt rd imm' := by
  rw [instrOf, instrOf, if_pos rfl, if_pos rfl]

theorem decode_clear {w : Word} (h : fieldOp w = opRFormat) : decode w = decode (w &&& 0xFFFFF83F#32) := by
  obtain ⟨hop, hrs, hrt, hrd, hfunc⟩ := fields_clear w
  rw [decode, decode, hop, hrs, hrt, hrd, hfunc, h]
  exact instrOf_rFormat_imm ..

/-- Settles O7: clearing the bits keeps every field an R-format word is decoded by, and a word's cycle is the effect of
what it decodes to. -/
theorem unusedRFormatBitsAreIgnored : Obligations.UnusedRFormatBitsAreIgnored := by
  refine ⟨fun w h => decode_clear h, fun w i s h hd => ?_, by decide, by decide⟩
  have hclear : decode (w &&& 0xFFFFF83F#32) = .instr i := (decode_clear h).symm.trans hd
  rw [execWord_instr hd, execWord_instr hclear]

/-! ## The invariants of the control table (30_encoding.md R60) -/

/-- The bundle of any pair, by the kind of its row: the three R-format rows and the three register-immediate rows differ
in `alu_op` only, which no invariant speaks of. -/
theorem controlOf_cases (op func : Code) :
    (op = opRFormat ∧ (func = funcAdd ∨ func = funcAnd ∨ func = funcSlt) ∧
      ∃ o, controlOf op func = rFormatSignals o) ∨
    ((op = opAddi ∨ op = opLui ∨ op = opOri) ∧ ∃ o, controlOf op func = immediateSignals o) ∨
    (op = opLw ∧ controlOf op func = lwSignals) ∨
    (op = opSw ∧ controlOf op func = swSignals) ∨
    (op = opBeq ∧ controlOf op func = beqSignals) ∨
    ((op = opRFormat → func ≠ funcAdd ∧ func ≠ funcAnd ∧ func ≠ funcSlt) ∧ op ≠ opBeq ∧
      controlOf op func = zeroBundle) := by
  have row {c : ControlSignals} (h : controlRow op func = some c) : controlOf op func = c := by
    rw [controlOf, h, Option.getD_some]
  rcases controlRow_cases op func with ⟨hop, hf, h⟩ | ⟨hop, hf, h⟩ | ⟨hop, hf, h⟩ | ⟨hop, h⟩ | ⟨hop, h⟩ | ⟨hop, h⟩ |
    ⟨hop, h⟩ | ⟨hop, h⟩ | ⟨hop, h⟩ | ⟨hR, _, _, _, _, _, hbeq, h⟩
  · exact .inl ⟨hop, .inl hf, _, row h⟩
  · exact .inl ⟨hop, .inr (.inl hf), _, row h⟩
  · exact .inl ⟨hop, .inr (.inr hf), _, row h⟩
  · exact .inr (.inl ⟨.inl hop, _, row h⟩)
  · exact .inr (.inl ⟨.inr (.inl hop), _, row h⟩)
  · exact .inr (.inl ⟨.inr (.inr hop), _, row h⟩)
  · exact .inr (.inr (.inl ⟨hop, row h⟩))
  · exact .inr (.inr (.inr (.inl ⟨hop, row h⟩)))
  · exact .inr (.inr (.inr (.inr (.inl ⟨hop, row h⟩))))
  · exact .inr (.inr (.inr (.inr (.inr ⟨hR, hbeq, by rw [controlOf, h, Option.getD_none]⟩))))

/-- Settles O10: every row keeps the invariants, and so does the zero bundle, whose `alu_src` is not `REG`. -/
theorem controlTableKeepsItsPromises : Obligations.ControlTableKeepsItsPromises := by
  intro op func
  rcases controlOf_cases op func with ⟨rfl, hf, o, h⟩ | ⟨hop, o, h⟩ | ⟨rfl, h⟩ | ⟨rfl, h⟩ | ⟨rfl, h⟩ | ⟨hR, hbeq, h⟩
  · have hf : func = 0x20#6 ∨ func = 0x24#6 ∨ func = 0x2A#6 := hf
    rw [h]
    simp [rFormatSignals, opRFormat, hf]
  · rw [h]
    rcases hop with rfl | rfl | rfl <;> simp [immediateSignals, opAddi, opLui, opOri]
  · rw [h]
    simp [lwSignals, opLw]
  · rw [h]
    simp [swSignals, opSw]
  · rw [h]
    simp [beqSignals, opBeq]
  · have hsrc : ¬ (op = 0x00#6 ∧ (func = 0x20#6 ∨ func = 0x24#6 ∨ func = 0x2A#6) ∨ op = 0x04#6) := by
      rintro (⟨hop, hf⟩ | hop)
      · obtain ⟨hadd, hand, hslt⟩ := hR hop
        exact hf.elim hadd (·.elim hand hslt)
      · exact hbeq hop
    rw [h]
    simp [zeroBundle, hsrc]

end Sys2Proof.Machine

/-!
PROOFS. The statements of 41_alu_register.md: ADD, AND and SLT. Each is assembled from the write-back it commits, the words
that decode to it, its control row and its assembler form.
-/

namespace Sys2Proof.Machine

/-! ## Which words decode to an instruction (INDEX.md, 30_encoding.md R58) -/

/-- A decoded word matches the opcode table's row of its instruction. -/
theorem rowOf_matches_of_decode {w : Word} {i : Instr} (h : decode w = .instr i) : (rowOf i).Matches w := by
  rcases decode_cases w with ⟨hop, hf, hd⟩ | ⟨hop, hf, hd⟩ | ⟨hop, hf, hd⟩ | ⟨hop, hd⟩ | ⟨hop, hd⟩ | ⟨hop, hd⟩ |
    ⟨hop, hd⟩ | ⟨hop, hd⟩ | ⟨hop, hd⟩ | ⟨_, hd⟩
  all_goals cases h.symm.trans hd
  · exact (rowAdd_matches w).2 ⟨hop, hf⟩
  · exact (rowAnd_matches w).2 ⟨hop, hf⟩
  · exact (rowSlt_matches w).2 ⟨hop, hf⟩
  · exact (rowAddi_matches w).2 hop
  · exact (rowLui_matches w).2 hop
  · exact (rowOri_matches w).2 hop
  · exact (rowLw_matches w).2 hop
  · exact (rowSw_matches w).2 hop
  · exact (rowBeq_matches w).2 hop

/-- Under `op = 0` the instruction is the one `func` selects, over the word's own register fields. -/
theorem decode_rFormat {w : Word} {func : Code} (h : fieldOp w = opRFormat ∧ fieldFunc w = func) :
    decode w = instrOf opRFormat func (fieldRs w) (fieldRt w) (fieldRd w) (fieldImm w) := by
  obtain ⟨hop, hf⟩ := h
  rw [decode, hop, hf]

theorem rowAdd_matches_iff_decode (w : Word) :
    rowAdd.Matches w ↔ decode w = .instr (.add (fieldRs w) (fieldRt w) (fieldRd w)) :=
  ⟨fun h => decode_rFormat ((rowAdd_matches w).1 h), rowOf_matches_of_decode⟩

theorem rowAnd_matches_iff_decode (w : Word) :
    rowAnd.Matches w ↔ decode w = .instr (.and (fieldRs w) (fieldRt w) (fieldRd w)) :=
  ⟨fun h => decode_rFormat ((rowAnd_matches w).1 h), rowOf_matches_of_decode⟩

theorem rowSlt_matches_iff_decode (w : Word) :
    rowSlt.Matches w ↔ decode w = .instr (.slt (fieldRs w) (fieldRt w) (fieldRd w)) :=
  ⟨fun h => decode_rFormat ((rowSlt_matches w).1 h), rowOf_matches_of_decode⟩

/-! ## The R-format assembler form (30_encoding.md R65) -/

/-- Register numbers in the written order `rd, rs, rt` give the instruction in the field order `rs, rt, rd`. -/
theorem assembleR_toNat (make : RegIdx → RegIdx → RegIdx → Instr) (rd rs rt : RegIdx) :
    assembleR make rd.toNat rs.toNat rt.toNat = some (make rs rt rd) := by
  simp only [assembleR, assembleReg_toNat]

/-! ## What the three instructions commit (41_alu_register.md R92-R94) -/

section commits
variable (rs rt rd : RegIdx) (s : State)

theorem exec_add : exec (.add rs rt rd) s = .next (s.writeBack rd (s.readReg rs + s.readReg rt)) := rfl

theorem exec_and : exec (.and rs rt rd) s = .next (s.writeBack rd (s.readReg rs &&& s.readReg rt)) := rfl

theorem exec_slt : exec (.slt rs rt rd) s =
    .next (s.writeBack rd (if (s.readReg rs).toInt < (s.readReg rt).toInt then 1#32 else 0#32)) := rfl

end commits

/-- Settles O11: ADD's next state is the write-back of the sum, whose effect and frame are the write-back's. -/
theorem addWritesTheSum : Obligations.AddWritesTheSum :=
  ⟨fun rs rt rd s => ⟨_, exec_add rs rt rd s, wroteReg_writeBack s rd _⟩, rowAdd_matches_iff_decode, rfl,
    assembleR_toNat .add⟩

/-- Settles O12: AND's next state is the write-back of the conjunction, whose effect and frame are the write-back's. -/
theorem andWritesTheConjunction : Obligations.AndWritesTheConjunction :=
  ⟨fun rs rt rd s => ⟨_, exec_and rs rt rd s, wroteReg_writeBack s rd _⟩, rowAnd_matches_iff_decode, rfl,
    assembleR_toNat .and⟩

/-- Settles O13: SLT's next state is the write-back of the signed comparison's 1 or 0, whose effect and frame are the
write-back's. -/
theorem sltWritesTheSignedComparison : Obligations.SltWritesTheSignedComparison :=
  ⟨fun rs rt rd s => ⟨_, exec_slt rs rt rd s, wroteReg_writeBack s rd _⟩, rowSlt_matches_iff_decode, rfl,
    assembleR_toNat .slt⟩

end Sys2Proof.Machine

/-!
PROOFS. The statements of 42_alu_immediate.md: ADDI, LUI and ORI, and what the assembler accepts. Each instruction's is
assembled from the write-back it commits, the words that decode to it, its control row and its assembler form.
-/

namespace Sys2Proof.Machine

/-! ## Which words decode to an I-format instruction (INDEX.md, 30_encoding.md R58) -/

/-- The instruction is the one `op` names, over the word's own fields. -/
theorem decode_iFormat {w : Word} {op : Code} (h : fieldOp w = op) :
    decode w = instrOf op (fieldFunc w) (fieldRs w) (fieldRt w) (fieldRd w) (fieldImm w) := by
  rw [decode, h]

theorem rowAddi_matches_iff_decode (w : Word) :
    rowAddi.Matches w ↔ decode w = .instr (.addi (fieldRs w) (fieldRt w) (fieldImm w)) :=
  ⟨fun h => decode_iFormat ((rowAddi_matches w).1 h), rowOf_matches_of_decode⟩

theorem rowLui_matches_iff_decode (w : Word) :
    rowLui.Matches w ↔ decode w = .instr (.lui (fieldRs w) (fieldRt w) (fieldImm w)) :=
  ⟨fun h => decode_iFormat ((rowLui_matches w).1 h), rowOf_matches_of_decode⟩

theorem rowOri_matches_iff_decode (w : Word) :
    rowOri.Matches w ↔ decode w = .instr (.ori (fieldRs w) (fieldRt w) (fieldImm w)) :=
  ⟨fun h => decode_iFormat ((rowOri_matches w).1 h), rowOf_matches_of_decode⟩

/-! ## The I-format assembler form (30_encoding.md R65, R66) -/

/-- An immediate in range is taken modulo 2^16. -/
theorem assembleImm_inRange {v : Int} (hlo : -32768 ≤ v) (hhi : v ≤ 65535) :
    assembleImm v = some (BitVec.ofInt 16 v) :=
  if_pos (decide_eq_true ⟨hlo, hhi⟩)

/-- Register numbers, and an immediate that assembles, give the instruction. -/
theorem assembleI_toNat (make : RegIdx → RegIdx → Half → Instr) (rs rt : RegIdx) {v : Int} {imm : Half}
    (hv : assembleImm v = some imm) : assembleI make rs.toNat rt.toNat v = some (make rs rt imm) := by
  simp only [assembleI, assembleReg_toNat, hv]

/-! ## What the three instructions commit (42_alu_immediate.md R95-R97) -/

section commits
variable (rs rt : RegIdx) (imm : Half) (s : State)

theorem exec_addi : exec (.addi rs rt imm) s = .next (s.writeBack rt (s.readReg rs + sext32 imm)) := rfl

theorem exec_lui : exec (.lui rs rt imm) s = .next (s.writeBack rt (imm ++ 0#16)) := by
  rw [← aluShl16_sext32]
  rfl

theorem exec_ori : exec (.ori rs rt imm) s = .next (s.writeBack rt (s.readReg rs ||| sext32 imm)) := rfl

end commits

/-- The upper half of a sign-extended immediate repeats its top bit. -/
theorem extractLsb'_sext32 (imm : Half) :
    (sext32 imm).extractLsb' 16 16 = if imm.msb then BitVec.allOnes 16 else 0#16 := by
  ext i hi
  have hupper : ((sext32 imm).extractLsb' 16 16)[i] = imm.msb := by
    rw [BitVec.getElem_extractLsb', sext32, BitVec.getLsbD_signExtend]
    simp [show 16 + i < 32 by omega]
  rw [hupper]
  cases imm.msb with
  | false => exact (BitVec.getElem_zero hi).symm
  | true => exact (BitVec.getElem_allOnes i hi).symm

/-- ORI's upper half, by the immediate's top bit (R97). -/
theorem extractLsb'_or_sext32 (a : Word) (imm : Half) :
    (a ||| sext32 imm).extractLsb' 16 16 = if imm.msb then BitVec.allOnes 16 else a.extractLsb' 16 16 := by
  rw [BitVec.extractLsb'_or, extractLsb'_sext32]
  split
  · exact BitVec.or_allOnes
  · exact BitVec.or_zero

/-- Settles O14: ADDI's next state is the write-back of the sum, whose effect and frame are the write-back's. -/
theorem addiAddsTheSignExtendedImmediate : Obligations.AddiAddsTheSignExtendedImmediate :=
  ⟨fun rs rt imm s => ⟨_, exec_addi rs rt imm s, wroteReg_writeBack s rt _⟩, rowAddi_matches_iff_decode, fun _ => rfl,
    fun rt rs _ hlo hhi => assembleI_toNat .addi rs rt (assembleImm_inRange hlo hhi)⟩

/-- Settles O15: LUI's next state is the write-back of the shifted immediate, in which no bit of the sign extension is
left. -/
theorem luiPlacesTheUpperHalf : Obligations.LuiPlacesTheUpperHalf :=
  ⟨fun rs rt imm s => ⟨_, exec_lui rs rt imm s, wroteReg_writeBack s rt _⟩, rowLui_matches_iff_decode, fun _ => rfl,
    fun rt _ hlo hhi => assembleI_toNat .lui 0#5 rt (assembleImm_inRange hlo hhi)⟩

/-- Settles O16: ORI's next state is the write-back of the disjunction; its upper half is that of `x[rs]` ORed with 16
copies of the immediate's top bit. -/
theorem oriOrsTheSignExtendedImmediate : Obligations.OriOrsTheSignExtendedImmediate := by
  refine ⟨fun rs rt imm s => ⟨_, exec_ori rs rt imm s, wroteReg_writeBack s rt _, fun hrt hmsb => ?_,
    fun hrt hmsb => ?_⟩, rowOri_matches_iff_decode, fun _ => rfl,
    fun rt rs _ hlo hhi => assembleI_toNat .ori rs rt (assembleImm_inRange hlo hhi)⟩
  · rw [(wroteReg_writeBack s rt _).written hrt, extractLsb'_or_sext32, if_pos hmsb]
    rfl
  · rw [(wroteReg_writeBack s rt _).written hrt, extractLsb'_or_sext32, hmsb, if_neg Bool.false_ne_true]

/-! ## What the assembler accepts, and the round trip (30_encoding.md R65, R66) -/

/-- The two layouts accept by their operands; ADDI, ORI, LW and SW are written `rt` first, and LUI with no `rs`. -/
theorem assemble_isSome (a : AsmInstr) : (assemble a).isSome = a.wf := by
  have swapped (make : RegIdx → RegIdx → Half → Instr) (rt rs : Nat) (v : Int) :
      (assembleI make rs rt v).isSome = (regNumberOk rt && regNumberOk rs && immediateOk v) := by
    rw [assembleI_isSome, Bool.and_comm (regNumberOk rs)]
  cases a with
  | add rd rs rt => exact assembleR_isSome .add rd rs rt
  | and rd rs rt => exact assembleR_isSome .and rd rs rt
  | slt rd rs rt => exact assembleR_isSome .slt rd rs rt
  | addi rt rs v => exact swapped .addi rt rs v
  | ori rt rs v => exact swapped .ori rt rs v
  | lui rt v => exact assembleI_isSome .lui 0 rt v
  | lw rt v rs => exact swapped .lw rt rs v
  | sw rt v rs => exact swapped .sw rt rs v
  | beq rs rt v => exact assembleI_isSome .beq rs rt v

/-- A LUI's printed form has no `rs`. -/
theorem assemble_instrToAsm_lui (rs rt : RegIdx) (imm : Half) :
    assemble (instrToAsm (.lui rs rt imm)) = some (.lui 0 rt imm) :=
  assembleI_toNat .lui 0#5 rt (assembleImm_toInt imm)

/-- Any other form prints every operand of its instruction. -/
theorem assemble_instrToAsm {i : Instr} (hlui : ∀ rs rt imm, i ≠ .lui rs rt imm) :
    assemble (instrToAsm i) = some i := by
  cases i with
  | add rs rt rd => exact assembleR_toNat .add rd rs rt
  | and rs rt rd => exact assembleR_toNat .and rd rs rt
  | slt rs rt rd => exact assembleR_toNat .slt rd rs rt
  | addi rs rt imm => exact assembleI_toNat .addi rs rt (assembleImm_toInt imm)
  | lui rs rt imm => exact absurd rfl (hlui rs rt imm)
  | ori rs rt imm => exact assembleI_toNat .ori rs rt (assembleImm_toInt imm)
  | lw rs rt imm => exact assembleI_toNat .lw rs rt (assembleImm_toInt imm)
  | sw rs rt imm => exact assembleI_toNat .sw rs rt (assembleImm_toInt imm)
  | beq rs rt imm => exact assembleI_toNat .beq rs rt (assembleImm_toInt imm)

/-- LUI's effect does not depend on its `rs` field (42_alu_immediate.md R96). -/
theorem exec_lui_rs_irrelevant (rs rs' rt : RegIdx) (imm : Half) (s : State) :
    exec (.lui rs rt imm) s = exec (.lui rs' rt imm) s :=
  (exec_lui rs rt imm s).trans (exec_lui rs' rt imm s).symm

/-- Settles O39: each form's operands assemble by themselves, and a printed operand assembles to the one printed. -/
theorem assemblerAcceptsAndRoundTrips : Obligations.AssemblerAcceptsAndRoundTrips :=
  ⟨fun a => by rw [assemble_isSome], fun _ => assemble_instrToAsm, assemble_instrToAsm_lui,
    fun rs rt imm s => exec_lui_rs_irrelevant rs 0 rt imm s⟩

end Sys2Proof.Machine

/-!
PROOFS. The statements of 43_load_store.md: LW and SW. Each is assembled from what a cell that exists lets it commit, the
model fault both take at one that does not, the words that decode to it, its control row and its assembler form.
-/

namespace Sys2Proof.Machine

/-! ## The addressing mode (43_load_store.md R98) -/

theorem effectiveAddress_eq (s : State) (rs : RegIdx) (imm : Half) :
    s.effectiveAddress rs imm = s.readReg rs + imm.signExtend 32 := rfl

/-! ## Which words decode to LW and SW (INDEX.md, 30_encoding.md R58) -/

theorem rowLw_matches_iff_decode (w : Word) :
    rowLw.Matches w ↔ decode w = .instr (.lw (fieldRs w) (fieldRt w) (fieldImm w)) :=
  ⟨fun h => decode_iFormat ((rowLw_matches w).1 h), rowOf_matches_of_decode⟩

theorem rowSw_matches_iff_decode (w : Word) :
    rowSw.Matches w ↔ decode w = .instr (.sw (fieldRs w) (fieldRt w) (fieldImm w)) :=
  ⟨fun h => decode_iFormat ((rowSw_matches w).1 h), rowOf_matches_of_decode⟩

/-! ## What an access commits, and when it takes the model fault (43_load_store.md R99, R100) -/

/-- An LW of a cell that exists writes the cell back. -/
theorem exec_lw_inRange {s : State} {rs rt : RegIdx} {imm : Half}
    (hr : s.dmemInRange (s.effectiveAddress rs imm) = true) :
    exec (.lw rs rt imm) s = .next (s.writeBack rt (s.dmemRead (s.effectiveAddress rs imm))) :=
  if_pos hr

/-- A word that decodes to an access of a cell that does not exist takes the model fault, which records that word. -/
theorem exec_decoded_access_outOfRange {w : Word} {i : Instr} {rs rt : RegIdx} {imm : Half} {s : State}
    (hd : decode w = .instr i) (hi : i = .lw rs rt imm ∨ i = .sw rs rt imm)
    (hr : s.dmemWords ≤ (s.effectiveAddress rs imm).toNat) :
    exec i s = s.raiseAddressOutOfRange w (s.effectiveAddress rs imm) := by
  rw [exec_access_outOfRange hi ((dmemInRange_eq_false s _).2 hr), encode_of_decode_access hd hi]

/-- Settles O17: in range, LW's next state is the write-back of the cell, whose effect and frame are the write-back's;
out of range, whatever `rt` is, it takes the fault that LW and SW share. -/
theorem lwLoadsTheWordOrFaults : Obligations.LwLoadsTheWordOrFaults :=
  ⟨effectiveAddress_eq,
    fun _ rt _ s hr => ⟨_, exec_lw_inRange ((dmemInRange_iff s _).2 hr), wroteReg_writeBack s rt _⟩,
    fun _ _ _ _ _ hd hr => exec_decoded_access_outOfRange hd (.inl rfl) hr,
    rowLw_matches_iff_decode, fun _ => rfl,
    fun rt rs _ hlo hhi => assembleI_toNat .lw rs rt (assembleImm_inRange hlo hhi)⟩

/-- Settles O18: in range, SW's next state is the commit of the store, whose effect and frame are the store's; out of
range it takes the fault that LW and SW share. -/
theorem swStoresTheWordOrFaults : Obligations.SwStoresTheWordOrFaults :=
  ⟨effectiveAddress_eq,
    fun _ _ _ s hr => ⟨_, exec_sw_inRange ((dmemInRange_iff s _).2 hr), storedCell_dmemWrite s _ _⟩,
    fun _ _ _ _ _ hd hr => exec_decoded_access_outOfRange hd (.inr rfl) hr,
    rowSw_matches_iff_decode, fun _ => rfl,
    fun rt rs _ hlo hhi => assembleI_toNat .sw rs rt (assembleImm_inRange hlo hhi)⟩

end Sys2Proof.Machine

/-!
PROOFS. The statements of 44_branch.md: BEQ, and the word the control unit does not match. Both turn on what moves only the
`pc`; the unsupported word's other outcome is the model fault the policy asks for.
-/

namespace Sys2Proof.Machine

/-! ## BEQ (44_branch.md R101; INDEX.md, 30_encoding.md R58) -/

theorem rowBeq_matches_iff_decode (w : Word) :
    rowBeq.Matches w ↔ decode w = .instr (.beq (fieldRs w) (fieldRt w) (fieldImm w)) :=
  ⟨fun h => decode_iFormat ((rowBeq_matches w).1 h), rowOf_matches_of_decode⟩

/-- A BEQ moves the `pc` to what the comparator chooses. -/
theorem exec_beq (rs rt : RegIdx) (imm : Half) (s : State) :
    exec (.beq rs rt imm) s = .next (s.setPc
      (if s.readReg rs = s.readReg rt then s.pc + 1#32 + sext32 imm else s.pc + 1#32)) := by
  rw [← nextPc_eqFlag]
  rfl

/-- Settles O19: BEQ's next state is the one with the chosen `pc`, whose frame is `setPc`'s. -/
theorem beqBranchesOnEqualOperands : Obligations.BeqBranchesOnEqualOperands :=
  ⟨fun rs rt imm s => ⟨_, exec_beq rs rt imm s, onlyPc_setPc s _⟩, rowBeq_matches_iff_decode, fun _ => rfl,
    fun rs rt _ hlo hhi => assembleI_toNat .beq rs rt (assembleImm_inRange hlo hhi)⟩

/-! ## Words the control unit does not match (44_branch.md R103, 60_exceptions.md R107) -/

/-- The control bundle of an unsupported pair is the zero bundle (30_encoding.md R59). -/
theorem controlOf_of_controlRow_none {op func : Code} (h : controlRow op func = none) :
    controlOf op func = zeroBundle := by
  rw [controlOf, h, Option.getD_none]

theorem execUnsupported_nop {s : State} (hp : s.policy = .nop) (w : Word) :
    execUnsupported w s = .next s.advance := by
  simp only [execUnsupported, hp]

theorem execUnsupported_fault {s : State} (hp : s.policy = .fault) (w : Word) :
    execUnsupported w s = s.raiseUnsupportedOpcode w := by
  simp only [execUnsupported, hp]

/-- The decoder rejects what the control table lacks, so the step is the unsupported word's effect. -/
theorem step_of_controlRow_none {s : State} {w : Word} (hf : s.fault = none) (hw : s.fetch = some w)
    (hc : controlRow (fieldOp w) (fieldFunc w) = none) : step s = execUnsupported w s := by
  obtain ⟨op, func, hd⟩ := (decode_unsupported_iff w).2 hc
  rw [step_fetched hf hw, execWord_unsupported hd]

/-- Settles O21: the step is the unsupported word's effect, and the policy says whether that is the advance, whose frame is
`setPc`'s, or the model fault. -/
theorem unsupportedWordFollowsThePolicy : Obligations.UnsupportedWordFollowsThePolicy := by
  refine ⟨fun s w hf hw hc hp => ⟨controlOf_of_controlRow_none hc, s.advance, ?_, onlyPc_advance s⟩,
    fun s w hf hw hc hp => ⟨none, ?_⟩⟩
  · rw [step_of_controlRow_none hf hw hc, execUnsupported_nop hp]
  · rw [step_of_controlRow_none hf hw hc, execUnsupported_fault hp]
    rfl

end Sys2Proof.Machine

/-!
PROOFS. The statements of 60_exceptions.md on the fetch past the image, on what a model fault commits, and on which model
fault a step takes. A fault-free state's faults are characterised once, with what each records.
-/

namespace Sys2Proof.Machine

/-! ## The state around a model fault (60_exceptions.md R109) -/

theorem not_leaves_step_of_faulted {s : State} {r : FaultRecord} (h : s.fault = some r) (t : State) :
    ¬ leaves (step s) t := by
  rw [step_faulted h]
  exact fun hnone : none = some t => nomatch hnone

theorem fault_eq_none_of_leaves {s t : State} (h : leaves (step s) t) : s.fault = none :=
  Option.eq_none_iff_forall_ne_some.2 fun _ hr => not_leaves_step_of_faulted hr t h

theorem leaves_step_of_fault {s t : State} {f : Fault} (h : step s = .fault f) (ht : f.stateAfter = some t) :
    leaves (step s) t := by
  rw [h]
  exact ht

theorem leaves_step_of_next {s t : State} (h : step s = .next t) : leaves (step s) t := by
  rw [h]
  exact rfl

/-- An instruction that goes on leaves the fault record as it is. -/
theorem exec_next_fault {i : Instr} {s t : State} (h : exec i s = .next t) : t.fault = s.fault := by
  rcases exec_next_cases h with ⟨d, v, rfl, _, _⟩ | ⟨rs, rt, imm, _, _, rfl⟩ | ⟨rs, rt, imm, _, rfl⟩
  · exact (wroteReg_writeBack s d v).fault
  · exact (storedCell_dmemWrite s _ _).fault
  · exact (onlyPc_setPc s _).fault

/-- A step that goes on leaves the fault record as it is. -/
theorem step_next_fault {s t : State} (h : step s = .next t) : t.fault = s.fault := by
  obtain ⟨_, w, _, ⟨_, _, _, _, rfl⟩ | ⟨i, _, hi⟩⟩ := step_next_cases h
  · exact (onlyPc_advance s).fault
  · exact exec_next_fault hi

theorem step_fault_leaves_takeFault {s t : State} {f : Fault} (h : step s = .fault f) (ht : f.stateAfter = some t) :
    ∃ kind word addr, t = s.takeFault kind word addr := by
  rcases step_leaves_cases (leaves_step_of_fault h ht) with hn | htake
  · cases h.symm.trans hn
  · exact htake

/-- Settles O24: the state a fault leaves is `takeFault`'s, a faulted state's step leaves none, and a step that goes on
leaves the fault record as it is. -/
theorem modelFaultCommitsNothing : Obligations.ModelFaultCommitsNothing := by
  refine ⟨fun s t f h ht => ⟨fault_eq_none_of_leaves (leaves_step_of_fault h ht), ?_⟩,
    fun s r => not_leaves_step_of_faulted, fun s t h => ?_⟩
  · obtain ⟨kind, word, addr, rfl⟩ := step_fault_leaves_takeFault h ht
    exact ⟨_, rfl, rfl⟩
  · have hf : s.fault = none := fault_eq_none_of_leaves (leaves_step_of_next h)
    exact ⟨hf, (step_next_fault h).trans hf⟩

/-! ## A fetch past the image (60_exceptions.md R106) -/

theorem step_of_fetch_none {s : State} (hf : s.fault = none) (hw : s.fetch = none) :
    step s = s.raiseFetchOutOfRange := by
  simp only [step, hf, hw, execFetchPastImage]

/-- The next `pc` of a step: a taken BEQ's target, or `pc + 1`. -/
theorem step_next_pc {s t : State} (h : step s = .next t) :
    (∃ w rs rt imm, s.fetch = some w ∧ decode w = .instr (.beq rs rt imm) ∧ s.readReg rs = s.readReg rt ∧
      t.pc = s.pc + 1#32 + sext32 imm) ∨
    t.pc = s.pc + 1#32 := by
  obtain ⟨_, w, hw, ⟨_, _, _, _, rfl⟩ | ⟨i, hd, hi⟩⟩ := step_next_cases h
  · exact .inr rfl
  · rcases exec_next_pc hi with ⟨rs, rt, imm, rfl, hpc⟩ | ⟨_, hpc⟩
    · by_cases heq : s.readReg rs = s.readReg rt
      · exact .inl ⟨w, rs, rt, imm, hw, hd, heq, hpc.trans (if_pos heq)⟩
      · exact .inr (hpc.trans (if_neg heq))
    · exact .inr hpc

/-- A word below `n` whose successor is not is followed by `n`: a successor that wraps is 0, and below. -/
theorem toNat_succ_eq_of_crossing {p : Word} {n : Nat} (hlt : p.toNat < n) (hle : n ≤ (p + 1#32).toNat) :
    (p + 1#32).toNat = n := by
  rw [BitVec.toNat_add, BitVec.toNat_ofNat] at hle ⊢
  omega

/-- Settles O22: a fetch fails exactly past the image, a step keeps the image, and but for a taken BEQ it advances by 1. -/
theorem fetchPastTheImageFaults : Obligations.FetchPastTheImageFaults := by
  refine ⟨fun s hf hlen => step_of_fetch_none hf ((fetch_eq_none s).2 hlen), fun s t h hin hout => ?_⟩
  rcases step_next_pc h with hbeq | hpc
  · exact .inl hbeq
  · rw [(step_leaves_sameLaunch (leaves_step_of_next h)).imem, hpc] at hout
    exact .inr ⟨hpc, hpc ▸ toNat_succ_eq_of_crossing hin hout⟩

/-! ## Which words are unsupported, and which access memory (30_encoding.md R61, 20_memory.md R41) -/

theorem isUnsupported_iff (w : Word) : isUnsupported w = true ↔ ∃ op func, decode w = .unsupported op func := by
  unfold isUnsupported
  cases decode w with
  | instr i => simp
  | unsupported op func => simp

theorem dataAddress_eq_some_iff (s : State) (w ea : Word) :
    s.dataAddress w = some ea ↔ ∃ i rs rt imm, decode w = .instr i ∧ (i = .lw rs rt imm ∨ i = .sw rs rt imm) ∧
      s.effectiveAddress rs imm = ea := by
  unfold State.dataAddress
  cases decode w with
  | unsupported op func => simp
  | instr i => cases i <;> simp

theorem accessOutOfRange_iff (s : State) (w : Word) :
    s.accessOutOfRange w = true ↔ ∃ ea, s.dataAddress w = some ea ∧ s.dmemInRange ea = false := by
  unfold State.accessOutOfRange
  cases s.dataAddress w with
  | none => simp
  | some ea => simp

/-- An unsupported word is no LW or SW, so it accesses no memory (60_exceptions.md R111). -/
theorem accessOutOfRange_of_isUnsupported (s : State) {w : Word} (h : isUnsupported w = true) :
    s.accessOutOfRange w = false := by
  obtain ⟨op, func, hd⟩ := (isUnsupported_iff w).1 h
  simp only [State.accessOutOfRange, State.dataAddress, hd]

/-! ## Which model fault a step takes (60_exceptions.md R105, R111) -/

theorem step_of_isUnsupported {s : State} {w : Word} (hf : s.fault = none) (hw : s.fetch = some w)
    (hu : isUnsupported w = true) (hp : s.policy = .fault) : step s = s.raiseUnsupportedOpcode w := by
  obtain ⟨op, func, hd⟩ := (isUnsupported_iff w).1 hu
  rw [step_fetched hf hw, execWord_unsupported hd, execUnsupported_fault hp]

theorem step_of_dataAddress_outOfRange {s : State} {w ea : Word} (hf : s.fault = none) (hw : s.fetch = some w)
    (ha : s.dataAddress w = some ea) (hr : s.dmemInRange ea = false) : step s = s.raiseAddressOutOfRange w ea := by
  obtain ⟨i, rs, rt, imm, hd, hi, rfl⟩ := (dataAddress_eq_some_iff s w ea).1 ha
  rw [step_fetched hf hw, execWord_instr hd, exec_decoded_access_outOfRange hd hi ((dmemInRange_eq_false s _).1 hr)]

/-- The model faults of a fault-free state, in the order of 60_exceptions.md R111: the condition and the record of each. -/
theorem step_fault_iff {s : State} (hf : s.fault = none) (f : Fault) :
    step s = .fault f ↔
      (s.fetch = none ∧ f = .fetchOutOfRange (s.takeFault .fetchOutOfRange none none)) ∨
      (∃ w, s.fetch = some w ∧ isUnsupported w = true ∧ s.policy = .fault ∧
        f = .unsupportedOpcode (s.takeFault .unsupportedOpcode (some w) none)) ∨
      (∃ w ea, s.fetch = some w ∧ s.dataAddress w = some ea ∧ s.dmemInRange ea = false ∧
        f = .addressOutOfRange (s.takeFault .addressOutOfRange (some w) (some ea))) := by
  constructor
  · intro h
    rcases step_fault_cases h with ⟨r, hr, _⟩ | ⟨_, hfetch | ⟨w, hw, ⟨op, func, hd, hp, rfl⟩ | ⟨i, hd, hi⟩⟩⟩
    · cases hf.symm.trans hr
    · exact .inl hfetch
    · exact .inr (.inl ⟨w, hw, (isUnsupported_iff w).2 ⟨op, func, hd⟩, hp, rfl⟩)
    · obtain ⟨rs, rt, imm, hacc, hr, rfl⟩ := exec_fault_cases hi
      rw [encode_of_decode_access hd hacc]
      exact .inr (.inr ⟨w, _, hw, (dataAddress_eq_some_iff s w _).2 ⟨i, rs, rt, imm, hd, hacc, rfl⟩, hr, rfl⟩)
  · rintro (⟨hw, rfl⟩ | ⟨w, hw, hu, hp, rfl⟩ | ⟨w, ea, hw, ha, hr, rfl⟩)
    · exact step_of_fetch_none hf hw
    · exact step_of_isUnsupported hf hw hu hp
    · exact step_of_dataAddress_outOfRange hf hw ha hr

section kinds
variable {s : State} (hf : s.fault = none) (t : State)
include hf

theorem step_fetchOutOfRange_iff :
    step s = .fault (.fetchOutOfRange t) ↔ s.fetch = none ∧ t = s.takeFault .fetchOutOfRange none none := by
  simp [step_fault_iff hf]

theorem step_unsupportedOpcode_iff :
    step s = .fault (.unsupportedOpcode t) ↔ ∃ w, s.fetch = some w ∧ isUnsupported w = true ∧ s.policy = .fault ∧
      t = s.takeFault .unsupportedOpcode (some w) none := by
  simp [step_fault_iff hf]

theorem step_addressOutOfRange_iff :
    step s = .fault (.addressOutOfRange t) ↔ ∃ w ea, s.fetch = some w ∧ s.dataAddress w = some ea ∧
      s.dmemInRange ea = false ∧ t = s.takeFault .addressOutOfRange (some w) (some ea) := by
  simp [step_fault_iff hf]

end kinds

/-- Settles O25: each kind's condition and record are those of `step_fault_iff`; a step that takes a model fault starts
fault-free. -/
theorem faultOrderAndContents : Obligations.FaultOrderAndContents := by
  refine ⟨fun s hf => ⟨?_, ?_, ?_⟩, fun s t h => ?_, fun s t h => ?_, fun s t h => ?_,
    fun s w => accessOutOfRange_of_isUnsupported s⟩
  · simp [step_fetchOutOfRange_iff hf]
  · simp [step_unsupportedOpcode_iff hf]
  · simp [step_addressOutOfRange_iff hf, accessOutOfRange_iff]
  all_goals have hf : s.fault = none := fault_eq_none_of_leaves (leaves_step_of_fault h rfl)
  · obtain ⟨_, rfl⟩ := (step_fetchOutOfRange_iff hf t).1 h
    rfl
  · obtain ⟨w, hw, _, _, rfl⟩ := (step_unsupportedOpcode_iff hf t).1 h
    exact ⟨none, hw ▸ rfl⟩
  · obtain ⟨w, ea, hw, ha, _, rfl⟩ := (step_addressOutOfRange_iff hf t).1 h
    exact ⟨w, ea, hw, ha, rfl⟩

end Sys2Proof.Machine

/-!
PROOFS. The statements of 70_reset_and_hazards.md: the state after reset, and the loader.
-/

namespace Sys2Proof.Machine

/-! ## After reset (70_reset_and_hazards.md R122, R123) -/

theorem launch_fetch_cons {l : Launch} {w : Word} {ws : List Word} (h : l.imem = w :: ws) :
    (State.launch l).fetch = some w := by
  simp [State.fetch, h]

theorem launch_dmem_read (l : Launch) (a : Nat) : (State.launch l).dmem.read a = 0#32 := Memory.read_nil a

/-- Settles O1: a launch has `pc` 0 and the empty cell list, in which every cell reads 0, and reset is the default
launch. -/
theorem launchStartsAtZeroWithZeroMemory : Obligations.LaunchStartsAtZeroWithZeroMemory :=
  ⟨fun l => ⟨launch_pc l, fun _ _ => launch_fetch_cons, launch_dmem_read l⟩,
    launch_pc defaultLaunch, launch_dmem_read defaultLaunch⟩

/-! ## A line of the image (20_memory.md R36, 70_reset_and_hazards.md R128) -/

/-- A digit after digits of value `value` makes the value `m` exactly when `m / 16` is `value` and the digit's capital is that
of `m % 16`. -/
theorem exists_hexDigit_iff (c : Char) (value m : Nat) :
    (∃ d, hexDigit c = some d ∧ m = value * 16 + d) ↔ m / 16 = value ∧ c.toUpper = hexChar (m % 16) := by
  simp only [hexDigit_eq_some_iff]
  constructor
  · rintro ⟨d, ⟨hd, hc⟩, rfl⟩
    have hmod : (value * 16 + d) % 16 = d := by omega
    exact ⟨by omega, hmod.symm ▸ hc⟩
  · rintro ⟨hv, hc⟩
    exact ⟨m % 16, ⟨by omega, hc⟩, by omega⟩

/-- After digits of value `value`, a hexadecimal numeral reads as `n` exactly when `value` is what of `n` stands above the
numeral's digits, and their capitals are the digits of `n` below, highest first. -/
theorem readNumeral_hex_eq_some_iff (cs : List Char) (value n : Nat) :
    readNumeral 16 hexDigit value cs = some n ↔ n / 16 ^ cs.length = value ∧
      cs.map Char.toUpper = (List.range cs.length).reverse.map fun k => hexChar (n / 16 ^ k % 16) := by
  induction cs generalizing value with
  | nil => simp [readNumeral, eq_comm]
  | cons c cs ih =>
    have hdiv : n / 16 ^ (cs.length + 1) = n / 16 ^ cs.length / 16 := by rw [pow_succ, Nat.div_div_eq_div_mul]
    calc readNumeral 16 hexDigit value (c :: cs) = some n
      _ ↔ ∃ d, hexDigit c = some d ∧ readNumeral 16 hexDigit (value * 16 + d) cs = some n := Option.bind_eq_some_iff
      _ ↔ (∃ d, hexDigit c = some d ∧ n / 16 ^ cs.length = value * 16 + d) ∧
          cs.map Char.toUpper = (List.range cs.length).reverse.map fun k => hexChar (n / 16 ^ k % 16) := by
        simp only [ih, ← and_assoc, exists_and_right]
      _ ↔ _ := by
        rw [exists_hexDigit_iff, List.length_cons, hdiv, List.range_succ, List.reverse_append, and_assoc]
        simp

/-- A line reads as `w` exactly when its capitals are the line printed for `w`. -/
theorem parseLine_eq_some_iff (line : List Char) (w : Word) :
    parseLine line = some w ↔ line.map Char.toUpper = hexLine w := by
  have hdigits : hexLine w = (List.range 8).reverse.map fun k => hexChar (w.toNat / 16 ^ k % 16) := rfl
  unfold parseLine
  split
  · next hlen =>
    have hread (n : Nat) := readNumeral_hex_eq_some_iff line 0 n
    rw [hlen] at hread
    rw [hdigits, Option.map_eq_some_iff]
    constructor
    · rintro ⟨n, hn, rfl⟩
      obtain ⟨hlt, hline⟩ := (hread n).1 hn
      rw [hline, BitVec.toNat_ofNat, Nat.mod_eq_of_lt (by omega)]
    · intro hline
      exact ⟨w.toNat, (hread _).2 ⟨by omega, hline⟩, BitVec.ofNat_toNat ..⟩
  · next hlen =>
    refine iff_of_false nofun fun hline => hlen ?_
    simpa [hexLine] using congrArg List.length hline

/-- The digit of a word's bits from `low` up is the hexadecimal digit at that place. -/
theorem digit_extractLsb' (w : Word) (k : Nat) :
    "0123456789ABCDEF".toList.getD (w.extractLsb' (4 * k) 4).toNat ' ' = hexChar (w.toNat / 16 ^ k % 16) := by
  have hpow : (16 : Nat) ^ k = 2 ^ (4 * k) := (pow_mul 2 4 k).symm
  have hlen : upperDigits.length = 16 := by decide
  have hlt : w.toNat / 16 ^ k % 16 < upperDigits.length := hlen ▸ Nat.mod_lt _ (by decide)
  rw [BitVec.extractLsb'_toNat, Nat.shiftRight_eq_div_pow, ← hpow]
  exact (List.getD_eq_getElem _ _ hlt).trans (List.getD_eq_getElem _ _ hlt).symm

/-- The line printed for a word is its digits, bits [31:28] first. -/
theorem hexLine_eq_extractLsb' (w : Word) : hexLine w = [28, 24, 20, 16, 12, 8, 4, 0].map fun low =>
    "0123456789ABCDEF".toList.getD (w.extractLsb' low 4).toNat ' ' := by
  have hplaces : [28, 24, 20, 16, 12, 8, 4, 0] = [7, 6, 5, 4, 3, 2, 1, 0].map (4 * ·) := rfl
  rw [hplaces, List.map_map]
  exact List.map_congr_left fun k _ => (digit_extractLsb' w k).symm

/-- A line is read exactly when it has 8 characters, each in one of the two rows of digits. -/
theorem parseLine_isSome_iff (line : List Char) :
    (parseLine line).isSome = true ↔ line.length = 8 ∧ ∀ c ∈ line, c ∈ upperDigits ∨ c ∈ lowerDigits := by
  unfold parseLine
  split
  · next hlen => simp [hlen, readNumeral_isSome_iff, hexDigit_isSome_iff]
  · next hlen => simp [hlen]

theorem mem_hexDigits_iff (c : Char) :
    c ∈ "0123456789ABCDEFabcdef".toList ↔ c ∈ upperDigits ∨ c ∈ lowerDigits := by
  have hinto : ∀ d ∈ "0123456789ABCDEFabcdef".toList, d ∈ upperDigits ∨ d ∈ lowerDigits := by
    simp [upperDigits_eq, lowerDigits_eq]
  have hback : ∀ d ∈ upperDigits ++ lowerDigits, d ∈ "0123456789ABCDEFabcdef".toList := by
    simp [upperDigits_eq, lowerDigits_eq]
  exact ⟨hinto c, fun h => hback c (List.mem_append.2 h)⟩

/-! ## The image and its launch (70_reset_and_hazards.md R127, R128) -/

/-- An image loads as `ws` exactly when each line reads as the word of its index. -/
theorem loadImage_eq_some_iff_getElem? (lines : List (List Char)) (ws : List Word) :
    loadImage lines = some ws ↔
      ws.length = lines.length ∧ ∀ k : Nat, lines[k]?.map parseLine = ws[k]?.map some := by
  have hget : (∀ k : Nat, lines[k]?.map parseLine = ws[k]?.map some) ↔ lines.map parseLine = ws.map some := by
    simp only [List.ext_getElem?_iff, List.getElem?_map]
  rw [loadImage_eq_some_iff, hget, iff_and_self]
  exact fun h => by simpa using (congrArg List.length h).symm

theorem loadImage_eq_none_of_mem {lines : List (List Char)} {line : List Char} (hmem : line ∈ lines)
    (hline : parseLine line = none) : loadImage lines = none := by
  refine Option.eq_none_iff_forall_ne_some.2 fun ws h => ?_
  have hread : parseLine line ∈ ws.map some := (loadImage_eq_some_iff lines ws).1 h ▸ List.mem_map_of_mem hmem
  simp [hline] at hread

/-- What an image starts: the launch of the words it loads as, under a well-formed launch. -/
theorem bootImage_eq_some_iff (lines : List (List Char)) (l : Launch) (s : State) :
    bootImage lines l = some s ↔
      ∃ ws, loadImage lines = some ws ∧ l.wf = true ∧ s = State.launch { l with imem := ws } := by
  unfold bootImage
  cases loadImage lines with
  | none => simp
  | some ws => simp [eq_comm (a := s)]

theorem bootImage_eq_none_of_mem {lines : List (List Char)} {line : List Char} (l : Launch) (hmem : line ∈ lines)
    (hline : parseLine line = none) : bootImage lines l = none := by
  rw [bootImage, loadImage_eq_none_of_mem hmem hline]

/-- Settles O38: a line's digits by induction along the numeral, an image as the list of its lines' words, and a start as
the launch of those words. -/
theorem loaderReadsTheImage : Obligations.LoaderReadsTheImage := by
  refine ⟨fun line => ?_, fun line w => ?_, loadImage_eq_some_iff_getElem?, fun lines ws l h hwf => ?_,
    fun lines l line => bootImage_eq_none_of_mem l, fun lines l s h => ?_⟩
  · simp only [mem_hexDigits_iff, parseLine_isSome_iff]
  · rw [parseLine_eq_some_iff, hexLine_eq_extractLsb']
  · exact (bootImage_eq_some_iff lines l _).2 ⟨ws, h, hwf, rfl⟩
  · obtain ⟨ws, hws, hwf, rfl⟩ := (bootImage_eq_some_iff lines l s).1 h
    exact ⟨hwf, hws, rfl⟩

end Sys2Proof.Machine

/-!
PROOFS. The statements on decoding and encoding (30_encoding.md sections 1 and 4, INDEX.md): the two are inverse but for the
bits no rule reads, and which words the opcode table, the decoder and the control unit have in common.
-/

namespace Sys2Proof.Machine

/-! ## Decoding an encoded word (30_encoding.md R50, R57) -/

/-- An encoded R-format word reads as what `func` selects, over the encoded registers. -/
theorem decode_encodeR (func : Code) (rs rt rd : RegIdx) :
    decode (encodeR func rs rt rd) = instrOf opRFormat func rs rt rd 0 := by
  rw [decode, fieldOp_encodeR, fieldFunc_encodeR, fieldRs_encodeR, fieldRt_encodeR, fieldRd_encodeR]
  exact instrOf_rFormat_imm ..

/-- An encoded I-format word reads as what `op` names over the encoded operands, if no `func` or `rd` its low bits also
spell has a say in it. -/
theorem decode_encodeI {op : Code} {rs rt : RegIdx} {imm : Half} {i : Instr}
    (h : ∀ func rd, instrOf op func rs rt rd imm = .instr i) : decode (encodeI op rs rt imm) = .instr i := by
  rw [decode, fieldOp_encodeI, fieldRs_encodeI, fieldRt_encodeI, fieldImm_encodeI]
  exact h _ _

/-- Settles O5: the encoder puts every operand in its field, and `op` and `func` select the instruction encoded. -/
theorem decodeOfEncodeIsTheInstruction : Obligations.DecodeOfEncodeIsTheInstruction := by
  intro i
  cases i with
  | add rs rt rd => exact decode_encodeR funcAdd rs rt rd
  | and rs rt rd => exact decode_encodeR funcAnd rs rt rd
  | slt rs rt rd => exact decode_encodeR funcSlt rs rt rd
  | addi rs rt imm => exact decode_encodeI fun _ _ => rfl
  | lui rs rt imm => exact decode_encodeI fun _ _ => rfl
  | ori rs rt imm => exact decode_encodeI fun _ _ => rfl
  | lw rs rt imm => exact decode_encodeI fun _ _ => rfl
  | sw rs rt imm => exact decode_encodeI fun _ _ => rfl
  | beq rs rt imm => exact decode_encodeI fun _ _ => rfl

/-! ## Encoding a decoded word (30_encoding.md R50, R51) -/

/-- A word with `op = 0` is the encoding of what it decodes to, but for bits [10:6]. -/
theorem encode_of_decode_R {w : Word} {i : Instr} (h : decode w = .instr i) (hop : fieldOp w = opRFormat) :
    encode i = w &&& 0xFFFFF83F#32 := by
  rw [decode, instrOf, if_pos hop] at h
  rw [← encodeR_fields hop]
  split_ifs at h with hadd hand hslt
  · cases h; rw [hadd]; rfl
  · cases h; rw [hand]; rfl
  · cases h; rw [hslt]; rfl

/-- Settles O6: the word is rebuilt from its own fields, which in the R format leave out bits [10:6]. -/
theorem encodeOfDecodeIsTheWord : Obligations.EncodeOfDecodeIsTheWord := by
  intro w i h
  split
  · next hop => exact encode_of_decode_R h hop
  · next hop => exact encode_of_decode_I h hop

/-! ## The rows of the opcode table (INDEX.md) -/

theorem rowOf_mem (i : Instr) : rowOf i ∈ opcodeTable := by
  cases i with
  | _ => simp [rowOf, opcodeTable]

/-- A word that matches a row of the table decodes to an instruction of that row. -/
theorem exists_decode_of_matches {w : Word} {p : OpRow} (hp : p ∈ opcodeTable) (h : p.Matches w) :
    ∃ i, decode w = .instr i ∧ rowOf i = p := by
  simp only [opcodeTable, List.mem_cons, List.not_mem_nil, or_false] at hp
  rcases hp with rfl | rfl | rfl | rfl | rfl | rfl | rfl | rfl | rfl
  · exact ⟨_, (rowAdd_matches_iff_decode w).1 h, rfl⟩
  · exact ⟨_, (rowAnd_matches_iff_decode w).1 h, rfl⟩
  · exact ⟨_, (rowSlt_matches_iff_decode w).1 h, rfl⟩
  · exact ⟨_, (rowAddi_matches_iff_decode w).1 h, rfl⟩
  · exact ⟨_, (rowLui_matches_iff_decode w).1 h, rfl⟩
  · exact ⟨_, (rowOri_matches_iff_decode w).1 h, rfl⟩
  · exact ⟨_, (rowLw_matches_iff_decode w).1 h, rfl⟩
  · exact ⟨_, (rowSw_matches_iff_decode w).1 h, rfl⟩
  · exact ⟨_, (rowBeq_matches_iff_decode w).1 h, rfl⟩

/-- Settles O8: a row a word matches is the row of the one instruction the word decodes to. -/
theorem wordMatchesAtMostOneRow : Obligations.WordMatchesAtMostOneRow := by
  refine ⟨fun w p q hp hq hpw hqw => ?_, fun w i h => ⟨rowOf_mem i, rowOf_matches_of_decode h⟩, fun w => ⟨?_, ?_⟩⟩
  · obtain ⟨i, hi, rfl⟩ := exists_decode_of_matches hp hpw
    obtain ⟨j, hj, rfl⟩ := exists_decode_of_matches hq hqw
    cases hi.symm.trans hj
    rfl
  · rintro ⟨op, func, hd⟩ p hp hpw
    obtain ⟨i, hi, _⟩ := exists_decode_of_matches hp hpw
    cases hd.symm.trans hi
  · intro hnone
    cases hd : decode w with
    | instr i => exact absurd (rowOf_matches_of_decode hd) (hnone _ (rowOf_mem i))
    | unsupported op func => exact ⟨op, func, rfl⟩

/-! ## The pairs no row has (30_encoding.md R61) -/

/-- The pairs the control table lacks, by `func` under `op = 0` and by `op` otherwise. -/
theorem controlRow_eq_none_iff (op func : Code) : controlRow op func = none ↔
    if op = opRFormat then func ≠ funcAdd ∧ func ≠ funcAnd ∧ func ≠ funcSlt
    else op ≠ opBeq ∧ op ≠ opAddi ∧ op ≠ opOri ∧ op ≠ opLui ∧ op ≠ opLw ∧ op ≠ opSw := by
  unfold controlRow
  by_cases hop : op = opRFormat
  · rw [if_pos hop, if_pos hop]
    split_ifs <;> simp_all
  · rw [if_neg hop, if_neg hop]
    split_ifs <;> simp_all

/-- Settles O9: the decoder rejects the pairs the control table lacks, which are the codes that name no row. -/
theorem unsupportedPairsAreTheRest : Obligations.UnsupportedPairsAreTheRest :=
  fun w => ⟨decode_unsupported_iff w, (decode_unsupported_iff w).trans (controlRow_eq_none_iff _ _)⟩

/-! ## Words the spec writes out (95_test_vectors.md) -/

/-- Settles O4: each word's fields are computed. -/
theorem specWordsDecode : Obligations.SpecWordsDecode := by
  unfold Obligations.SpecWordsDecode
  decide

end Sys2Proof.Machine

/-!
PROOFS. The statements of 30_encoding.md section 5 on printed text: the form printed, read line by line and operand by
operand, and the words the disassembler prints.
-/

namespace Sys2Proof.Machine

/-! ## Taking a printed line apart -/

theorem splitChars_pair {c : Char} {x y : List Char} (hx : c ∉ x) (hy : c ∉ y) :
    splitChars c (x ++ c :: y) [] = [x, y] := by
  rw [splitChars_append hx, splitChars_of_not_mem hy]
  rfl

theorem splitChars_triple {c : Char} {x y z : List Char} (hx : c ∉ x) (hy : c ∉ y) (hz : c ∉ z) :
    splitChars c (x ++ c :: (y ++ c :: z)) [] = [x, y, z] := by
  rw [splitChars_append hx, splitChars_pair hy hz]
  rfl

/-- A text that holds neither separator of a line, as a printed register or immediate. -/
def Unbroken (text : String) : Prop := ' ' ∉ text.toList ∧ ',' ∉ text.toList

theorem unbroken_regText (n : Nat) : Unbroken (regText n) :=
  ⟨(not_mem_operandText (by decide) (by decide) (by decide)).1 n,
    (not_mem_operandText (by decide) (by decide) (by decide)).1 n⟩

theorem unbroken_immText (v : Int) : Unbroken (immText v) :=
  ⟨(not_mem_operandText (by decide) (by decide) (by decide)).2 v,
    (not_mem_operandText (by decide) (by decide) (by decide)).2 v⟩

/-! ## Lines of three operands -/

theorem threeText_toList (m a b c : String) : (threeText m a b c).toList =
    m.toList ++ ' ' :: (a.toList ++ ',' :: (b.toList ++ ',' :: c.toList)) := by
  simp [threeText]

/-- A printed line of three operands is read as its mnemonic says. -/
theorem parseAsm_threeText {m a b c : String} (hm : ' ' ∉ m.toList) (ha : Unbroken a) (hb : Unbroken b)
    (hc : Unbroken c) : parseAsm (threeText m a b c).toList =
      if m.toList = ['A', 'D', 'D'] then parseThreeRegs .add a.toList b.toList c.toList
      else if m.toList = ['A', 'N', 'D'] then parseThreeRegs .and a.toList b.toList c.toList
      else if m.toList = ['S', 'L', 'T'] then parseThreeRegs .slt a.toList b.toList c.toList
      else if m.toList = ['A', 'D', 'D', 'I'] then parseRegsImm .addi a.toList b.toList c.toList
      else if m.toList = ['O', 'R', 'I'] then parseRegsImm .ori a.toList b.toList c.toList
      else if m.toList = ['B', 'E', 'Q'] then parseRegsImm .beq a.toList b.toList c.toList
      else none := by
  have hops : ' ' ∉ a.toList ++ ',' :: (b.toList ++ ',' :: c.toList) := by simp [ha.1, hb.1, hc.1]
  rw [threeText_toList]
  simp only [parseAsm, splitChars_pair hm hops, splitChars_triple ha.2 hb.2 hc.2]

theorem parseThreeRegs_regText (make : Nat → Nat → Nat → AsmInstr) (x y z : Nat) :
    parseThreeRegs make (regText x).toList (regText y).toList (regText z).toList = some (make x y z) := by
  simp only [parseThreeRegs, parseReg_regText]

theorem parseRegsImm_text (make : Nat → Nat → Int → AsmInstr) (x y : Nat) (v : Int) :
    parseRegsImm make (regText x).toList (regText y).toList (immText v).toList = some (make x y v) := by
  simp only [parseRegsImm, parseReg_regText, parseImm_immText]

/-- A printed line of three registers reads as the form its mnemonic makes. -/
theorem parseAsm_threeRegs {m : String} {make : Nat → Nat → Nat → AsmInstr}
    (hm : m = "ADD" ∧ make = .add ∨ m = "AND" ∧ make = .and ∨ m = "SLT" ∧ make = .slt) (x y z : Nat) :
    parseAsm (threeText m (regText x) (regText y) (regText z)).toList = some (make x y z) := by
  have hx := unbroken_regText x
  have hy := unbroken_regText y
  have hz := unbroken_regText z
  rcases hm with ⟨rfl, rfl⟩ | ⟨rfl, rfl⟩ | ⟨rfl, rfl⟩
  all_goals exact (parseAsm_threeText (by decide) hx hy hz).trans (parseThreeRegs_regText _ x y z)

/-- A printed line of two registers and an immediate reads as the form its mnemonic makes. -/
theorem parseAsm_regsImm {m : String} {make : Nat → Nat → Int → AsmInstr}
    (hm : m = "ADDI" ∧ make = .addi ∨ m = "ORI" ∧ make = .ori ∨ m = "BEQ" ∧ make = .beq) (x y : Nat) (v : Int) :
    parseAsm (threeText m (regText x) (regText y) (immText v)).toList = some (make x y v) := by
  have hx := unbroken_regText x
  have hy := unbroken_regText y
  have hv := unbroken_immText v
  rcases hm with ⟨rfl, rfl⟩ | ⟨rfl, rfl⟩ | ⟨rfl, rfl⟩
  all_goals exact (parseAsm_threeText (by decide) hx hy hv).trans (parseRegsImm_text _ x y v)

/-! ## Lines of two operands -/

theorem parseAsm_lui (x : Nat) (v : Int) :
    parseAsm ("LUI " ++ regText x ++ "," ++ immText v).toList = some (.lui x v) := by
  obtain ⟨hxs, hxc⟩ := unbroken_regText x
  obtain ⟨hvs, hvc⟩ := unbroken_immText v
  have htext : ("LUI " ++ regText x ++ "," ++ immText v).toList =
      ['L', 'U', 'I'] ++ ' ' :: ((regText x).toList ++ ',' :: (immText v).toList) := by simp
  have hops : ' ' ∉ (regText x).toList ++ ',' :: (immText v).toList := by simp [hxs, hvs]
  rw [htext]
  simp only [parseAsm, splitChars_pair (by decide : ' ' ∉ ['L', 'U', 'I']) hops, splitChars_pair hxc hvc, if_true,
    parseReg_regText, parseImm_immText]

theorem memoryText_toList (m a b c : String) : (memoryText m a b c).toList =
    m.toList ++ ' ' :: (a.toList ++ ',' :: (b.toList ++ '(' :: (c.toList ++ [')']))) := by
  simp [memoryText]

theorem parseRegMemory_text (make : Nat → Int → Nat → AsmInstr) (x : Nat) (v : Int) (y : Nat) :
    parseRegMemory make (regText x).toList ((immText v).toList ++ '(' :: ((regText y).toList ++ [')'])) =
      some (make x v y) := by
  have hv : '(' ∉ (immText v).toList := (not_mem_operandText (by decide) (by decide) (by decide)).2 v
  have hyo : '(' ∉ (regText y).toList := (not_mem_operandText (by decide) (by decide) (by decide)).1 y
  have hyc : ')' ∉ (regText y).toList := (not_mem_operandText (by decide) (by decide) (by decide)).1 y
  have hbase : '(' ∉ (regText y).toList ++ [')'] := by simp [hyo]
  simp only [parseRegMemory, parseReg_regText, splitChars_pair hv hbase, splitChars_pair hyc List.not_mem_nil,
    parseImm_immText, Option.map_some]

/-- A printed line of a register and a memory operand reads as the form its mnemonic makes. -/
theorem parseAsm_memoryText {m : String} {make : Nat → Int → Nat → AsmInstr}
    (hm : m = "LW" ∧ make = .lw ∨ m = "SW" ∧ make = .sw) (x : Nat) (v : Int) (y : Nat) :
    parseAsm (memoryText m (regText x) (immText v) (regText y)).toList = some (make x v y) := by
  obtain ⟨hxs, hxc⟩ := unbroken_regText x
  obtain ⟨hvs, hvc⟩ := unbroken_immText v
  obtain ⟨hys, hyc⟩ := unbroken_regText y
  have hops : ' ' ∉ (regText x).toList ++ ',' :: ((immText v).toList ++ '(' :: ((regText y).toList ++ [')'])) := by
    simp [hxs, hvs, hys]
  have hmem : ',' ∉ (immText v).toList ++ '(' :: ((regText y).toList ++ [')']) := by simp [hvc, hyc]
  have hmn : ' ' ∉ m.toList := by
    rcases hm with ⟨rfl, _⟩ | ⟨rfl, _⟩
    · decide
    · decide
  rw [memoryText_toList]
  simp only [parseAsm, splitChars_pair hmn hops, splitChars_pair hxc hmem]
  rcases hm with ⟨rfl, rfl⟩ | ⟨rfl, rfl⟩
  · exact parseRegMemory_text .lw x v y
  · exact parseRegMemory_text .sw x v y

/-! ## Printed forms and words (30_encoding.md R65, R66) -/

/-- Every form's printed text reads as it. -/
theorem parseAsm_asmText (a : AsmInstr) : parseAsm (asmText a).toList = some a := by
  cases a with
  | add rd rs rt => exact parseAsm_threeRegs (.inl ⟨rfl, rfl⟩) rd rs rt
  | and rd rs rt => exact parseAsm_threeRegs (.inr (.inl ⟨rfl, rfl⟩)) rd rs rt
  | slt rd rs rt => exact parseAsm_threeRegs (.inr (.inr ⟨rfl, rfl⟩)) rd rs rt
  | addi rt rs v => exact parseAsm_regsImm (.inl ⟨rfl, rfl⟩) rt rs v
  | ori rt rs v => exact parseAsm_regsImm (.inr (.inl ⟨rfl, rfl⟩)) rt rs v
  | lui rt v => exact parseAsm_lui rt v
  | lw rt v rs => exact parseAsm_memoryText (.inl ⟨rfl, rfl⟩) rt v rs
  | sw rt v rs => exact parseAsm_memoryText (.inr ⟨rfl, rfl⟩) rt v rs
  | beq rs rt v => exact parseAsm_regsImm (.inr (.inr ⟨rfl, rfl⟩)) rs rt v

/-- The text a word disassembles to assembles to what its instruction's form does. -/
theorem assemble_disassemble {w : Word} {i : Instr} (h : decode w = .instr i) :
    (parseAsm (disassemble w).toList).bind assemble = assemble (instrToAsm i) := by
  have htext : disassemble w = asmText (instrToAsm i) := by simp only [disassemble, h]
  rw [htext, parseAsm_asmText, Option.bind_some]

theorem toUpper_hexChar {d : Nat} (h : d < 16) : (hexChar d).toUpper = hexChar d := (hexDigit_of_row d h).1.2

/-- The digits printed for a word read as it. -/
theorem parseLine_hexLine (w : Word) : parseLine (hexLine w) = some w := by
  rw [parseLine_eq_some_iff, hexLine, List.map_map]
  exact List.map_congr_left fun _ _ => toUpper_hexChar (Nat.mod_lt _ (by decide))

/-- Settles O40: a printed line comes apart at its separators, which no operand holds, and each operand reads as what was
printed; the disassembler prints forms, or the digits of the word. -/
theorem printedTextReadsBack : Obligations.PrintedTextReadsBack := by
  refine ⟨parseAsm_asmText, fun w i hd hlui => ?_, fun w rs rt imm hd => ?_, fun w op func hd => ?_⟩
  · rw [assemble_disassemble hd, assemble_instrToAsm hlui]
  · rw [assemble_disassemble hd, assemble_instrToAsm_lui]
  · exact ⟨hexLine w, by simp only [disassemble, hd], parseLine_hexLine w⟩

end Sys2Proof.Machine

/-!
PROOFS. The statements of 40_datapath.md section 4, 60_exceptions.md section 1 and 70_reset_and_hazards.md sections 1 to 3: a
launch holds its parameters, when a step goes on, and a run up to its first model fault.
-/

namespace Sys2Proof.Machine

/-! ## What a launch holds (00_scope.md R7, 70_reset_and_hazards.md R124, R125) -/

theorem reset_readReg (r : RegIdx) : State.reset.readReg r = 0#32 := Vector.getElem_replicate r.isLt

/-- Settles O2: each field of a launch is a parameter, and reset is the default launch. -/
theorem launchHoldsItsParameters : Obligations.LaunchHoldsItsParameters :=
  ⟨fun _ _ => rfl, fun l => ⟨launch_fault l, launch_imem l, launch_dmemWords l, launch_policy l⟩, reset_readReg,
    launch_fault defaultLaunch, launch_imem defaultLaunch, launch_policy defaultLaunch⟩

/-! ## The step of a fetched word (40_datapath.md R89) -/

/-- Settles O20: a fault-free state's step is its fetched word's cycle, which is the effect of what the word decodes to. -/
theorem stepRunsTheDecodedInstruction : Obligations.StepRunsTheDecodedInstruction :=
  ⟨fun s _ _ hf hw hd => (step_fetched hf hw).trans (execWord_instr hd s),
    fun s _ _ _ hf hw hd => (step_fetched hf hw).trans (execWord_unsupported hd s), fun _ => rfl⟩

/-! ## When a step goes on (60_exceptions.md R104) -/

theorem execUnsupported_not_refused (w : Word) (s : State) (r : Refusal) : execUnsupported w s ≠ .refused r := by
  cases hp : s.policy with
  | nop => rw [execUnsupported_nop hp]; nofun
  | fault => rw [execUnsupported_fault hp]; nofun

/-- No step is refused. -/
theorem step_not_refused (s : State) (r : Refusal) : step s ≠ .refused r := by
  cases hf : s.fault with
  | some record => rw [step_faulted hf]; nofun
  | none =>
    cases hw : s.fetch with
    | none => rw [step_of_fetch_none hf hw]; nofun
    | some w =>
      rw [step_fetched hf hw]
      cases hd : decode w with
      | instr i => rw [execWord_instr hd]; exact exec_not_refused i s r
      | unsupported op func => rw [execWord_unsupported hd]; exact execUnsupported_not_refused w s r

theorem exec_next_or_addressOutOfRange (i : Instr) (s : State) : (∃ t, exec i s = .next t) ∨
    ((∃ rs rt imm, i = .lw rs rt imm ∨ i = .sw rs rt imm) ∧ ∃ t, exec i s = .fault (.addressOutOfRange t)) := by
  cases h : exec i s with
  | next t => exact .inl ⟨t, rfl⟩
  | refused r => exact absurd h (exec_not_refused i s r)
  | fault f =>
    obtain ⟨rs, rt, imm, hi, _, rfl⟩ := exec_fault_cases h
    exact .inr ⟨⟨rs, rt, imm, hi⟩, _, rfl⟩

theorem wordFaults_iff (s : State) (w : Word) : s.wordFaults w = true ↔
    (isUnsupported w = true ∧ s.policy = .fault) ∨ ∃ ea, s.dataAddress w = some ea ∧ s.dmemInRange ea = false := by
  rw [← accessOutOfRange_iff]
  simp [State.wordFaults]

/-- A fault-free state's step takes a model fault exactly when there is no word to fetch or the fetched one faults. -/
theorem exists_step_fault_iff {s : State} (hf : s.fault = none) :
    (∃ f, step s = .fault f) ↔ s.fetch = none ∨ ∃ w, s.fetch = some w ∧ s.wordFaults w = true := by
  simp only [step_fault_iff hf, wordFaults_iff]
  constructor
  · rintro ⟨f, ⟨hw, _⟩ | ⟨w, hw, hu, hp, _⟩ | ⟨w, ea, hw, ha, hr, _⟩⟩
    · exact .inl hw
    · exact .inr ⟨w, hw, .inl ⟨hu, hp⟩⟩
    · exact .inr ⟨w, hw, .inr ⟨ea, ha, hr⟩⟩
  · rintro (hw | ⟨w, hw, ⟨hu, hp⟩ | ⟨ea, ha, hr⟩⟩)
    · exact ⟨_, .inl ⟨hw, rfl⟩⟩
    · exact ⟨_, .inr (.inl ⟨w, hw, hu, hp, rfl⟩)⟩
    · exact ⟨_, .inr (.inr ⟨w, ea, hw, ha, hr, rfl⟩)⟩

/-- A step goes on exactly from a fault-free state that fetches a word that does not fault. -/
theorem exists_step_next_iff (s : State) :
    (∃ t, step s = .next t) ↔ s.fault = none ∧ ∃ w, s.fetch = some w ∧ s.wordFaults w = false := by
  constructor
  · rintro ⟨t, h⟩
    obtain ⟨hf, w, hw, _⟩ := step_next_cases h
    refine ⟨hf, w, hw, Bool.eq_false_iff.2 fun hfaults => ?_⟩
    obtain ⟨f, hs⟩ := (exists_step_fault_iff hf).2 (.inr ⟨w, hw, hfaults⟩)
    cases h.symm.trans hs
  · rintro ⟨hf, w, hw, hgo⟩
    cases hs : step s with
    | next t => exact ⟨t, rfl⟩
    | refused r => exact absurd hs (step_not_refused s r)
    | fault f =>
      rcases (exists_step_fault_iff hf).1 ⟨f, hs⟩ with hnone | ⟨w', hw', hfaults⟩
      · cases hnone.symm.trans hw
      · cases hw'.symm.trans hw
        cases hfaults.symm.trans hgo

/-- Settles O26: an instruction that stops is an LW or SW out of range, nothing is refused, and so a step that takes no model
fault goes on. -/
theorem cyclesGoOnExactlyWithoutFaults : Obligations.CyclesGoOnExactlyWithoutFaults :=
  ⟨exec_next_or_addressOutOfRange, step_not_refused, exists_step_next_iff⟩

/-! ## Runs (70_reset_and_hazards.md R132, 60_exceptions.md R109) -/

/-- A model fault leaves the start-of-cycle state with a record set, which that state justifies. -/
theorem stateAfter_of_step_fault {s : State} {f : Fault} (hf : s.fault = none) (h : step s = .fault f) :
    ∃ kind word addr, f.stateAfter = some (s.takeFault kind word addr) ∧
      (FaultRecord.mk kind s.pc word addr).justified s = true := by
  rcases (step_fault_iff hf f).1 h with ⟨hw, rfl⟩ | ⟨w, hw, hu, hp, rfl⟩ | ⟨w, ea, hw, ha, hout, rfl⟩
  · exact ⟨_, _, _, rfl, by simp [FaultRecord.justified, hw]⟩
  · exact ⟨_, _, _, rfl, by simp [FaultRecord.justified, hw, hu, hp]⟩
  · have hacc : s.accessOutOfRange w = true := (accessOutOfRange_iff s w).2 ⟨ea, ha, hout⟩
    exact ⟨_, _, _, rfl, by simp [FaultRecord.justified, hw, hacc, ha]⟩

theorem run_faulted {s : State} {r : FaultRecord} (h : s.fault = some r) (k : Nat) : s.run k = s := by
  cases k with
  | zero => rfl
  | succ k => simp only [State.run, step_faulted h]; rfl

theorem run_succ_of_next {s t : State} (h : step s = .next t) (k : Nat) : s.run (k + 1) = t.run k := by
  simp only [State.run, h]

theorem run_succ_of_fault {s t : State} {f : Fault} (h : step s = .fault f) (ht : f.stateAfter = some t) (k : Nat) :
    s.run (k + 1) = t := by
  simp only [State.run, h, ht, Option.getD_some]

/-- A run goes on from where a shorter one ended: a model fault ends both, for a faulted state's run stays. -/
theorem run_add (s : State) (j k : Nat) : s.run (j + k) = (s.run j).run k := by
  induction j generalizing s with
  | zero => rw [Nat.zero_add]; rfl
  | succ j ih =>
    rw [Nat.succ_add]
    cases hf : s.fault with
    | some r => rw [run_faulted hf, run_faulted hf, run_faulted hf]
    | none =>
      cases hs : step s with
      | next t => rw [run_succ_of_next hs, run_succ_of_next hs, ih]
      | refused r => exact absurd hs (step_not_refused s r)
      | fault f =>
        obtain ⟨kind, word, addr, ht, _⟩ := stateAfter_of_step_fault hf hs
        rw [run_succ_of_fault hs ht, run_succ_of_fault hs ht, run_faulted (takeFault_fault ..)]

/-- One step of a run from a fault-free state: it goes on and stays fault-free, or takes a model fault and is faulted. -/
theorem run_one_cases {s : State} (hf : s.fault = none) :
    (step s = .next (s.run 1) ∧ (s.run 1).fault = none) ∨
    ((∃ f, step s = .fault f ∧ f.stateAfter = some (s.run 1)) ∧ (s.run 1).fault ≠ none) := by
  cases hs : step s with
  | next t =>
    rw [run_succ_of_next hs]
    exact .inl ⟨rfl, (step_next_fault hs).trans hf⟩
  | refused r => exact absurd hs (step_not_refused s r)
  | fault f =>
    obtain ⟨kind, word, addr, ht, _⟩ := stateAfter_of_step_fault hf hs
    rw [run_succ_of_fault hs ht]
    exact .inr ⟨⟨f, rfl, ht⟩, nofun⟩

theorem safeFor_of_succ {s : State} {k : Nat} (h : s.SafeFor (k + 1)) : s.SafeFor k := by
  refine Option.eq_none_iff_forall_ne_some.2 fun r hr => ?_
  rw [State.SafeFor, run_add, run_faulted hr, hr] at h
  cases h

/-- Settles O37: the step after `k` is one step of the state `k` steps lead to, which goes on exactly when it stays
fault-free. -/
theorem runStopsAtTheFirstFault : Obligations.RunStopsAtTheFirstFault := by
  refine ⟨run_add, fun s k h => ?_, fun s k h hne => ?_, fun s j k r hr => ?_⟩
  · have hf : (s.run k).fault = none := safeFor_of_succ h
    rw [State.SafeFor, run_add] at h
    rw [run_add]
    rcases run_one_cases hf with ⟨hn, _⟩ | ⟨_, hfaulted⟩
    · exact hn
    · exact absurd h hfaulted
  · rw [State.SafeFor, run_add] at hne
    rw [run_add]
    rcases run_one_cases h with ⟨_, hsafe⟩ | ⟨hfault, _⟩
    · exact absurd hsafe hne
    · exact hfault
  · rw [run_add, run_faulted hr]

end Sys2Proof.Machine

/-!
PROOFS. The statements on the data memory and the invariant (10_state.md sections 6 and 7, 20_memory.md, 40_datapath.md
section 2): the canonical form is unique, a load after a store, what one cycle writes, and what every cycle keeps.
-/

namespace Sys2Proof.Machine

/-! ## The canonical memory (entry 15) -/

theorem Memory.mem_of_read_ne {m : Memory} {a : Nat} (h : m.read a ≠ unlistedCell) : (a, m.read a) ∈ m := by
  induction m with
  | nil => exact absurd rfl h
  | cons p m ih =>
    obtain ⟨k, v⟩ := p
    rw [Memory.read] at h ⊢
    split
    · next hk => exact hk ▸ List.mem_cons_self ..
    · next hk => exact List.mem_cons_of_mem _ (ih (by rwa [if_neg hk] at h))

theorem Memory.read_of_mem {m : Memory} (hs : m.Pairwise fun p q => p.1 < q.1) {a : Nat} {v : Word}
    (h : (a, v) ∈ m) : m.read a = v := by
  induction m with
  | nil => cases h
  | cons p m ih =>
    obtain ⟨k, x⟩ := p
    obtain ⟨hk, hm⟩ := List.pairwise_cons.1 hs
    rw [Memory.read]
    rcases List.mem_cons.1 h with heq | h
    · cases heq
      exact if_pos rfl
    · rw [if_neg (Nat.ne_of_lt (hk _ h)), ih hm h]

/-- A canonical memory lists exactly the cells that do not read 0, with what they read. -/
theorem Memory.mem_iff_read {m : Memory} (h : m.wf = true) (a : Nat) (v : Word) :
    (a, v) ∈ m ↔ m.read a = v ∧ v ≠ unlistedCell := by
  obtain ⟨hs, hd⟩ := (Memory.wf_iff m).1 h
  constructor
  · exact fun hmem => ⟨Memory.read_of_mem hs hmem, hd _ hmem⟩
  · rintro ⟨rfl, hv⟩
    exact Memory.mem_of_read_ne hv

/-- Settles O31: memories that read alike list the same cells, and a strictly rising list is fixed by its members. -/
theorem canonicalMemoriesAreEqualData : Obligations.CanonicalMemoriesAreEqualData := by
  intro m n hm hn hread
  have hmem : ∀ p, p ∈ m ↔ p ∈ n := fun (a, v) => by rw [Memory.mem_iff_read hm, Memory.mem_iff_read hn, hread]
  have hrising : Std.Asymm fun p q : Nat × Word => p.1 < q.1 := ⟨fun _ _ => Nat.lt_asymm⟩
  exact ((Memory.wf_iff m).1 hm).1.eq_of_mem_iff ((Memory.wf_iff n).1 hn).1 hmem

/-! ## A load after a store (20_memory.md R43) -/

theorem exec_sw_next {rs rt : RegIdx} {imm : Half} {s t : State} (h : exec (.sw rs rt imm) s = .next t) :
    t = (s.dmemWrite (s.effectiveAddress rs imm) (s.readReg rt)).advance := by
  rcases exec_next_cases h with ⟨_, _, _, hsw, _⟩ | ⟨_, _, _, heq, _, ht⟩ | ⟨_, _, _, heq, _⟩
  · exact absurd rfl (hsw rs rt imm)
  · cases heq
    exact ht
  · cases heq

theorem dmemRead_dmemWrite (s : State) (ea ea' v : Word) :
    (s.dmemWrite ea v).dmemRead ea' = if ea' = ea then v else s.dmemRead ea' := by
  simp only [State.dmemRead, dmemWrite_dmem, Memory.read_write, BitVec.toNat_inj]

/-- Settles O29: the load writes back the cell of the stored memory. -/
theorem loadAfterStoreReturnsTheValue : Obligations.LoadAfterStoreReturnsTheValue := by
  intro rs rt rs' rt' imm imm' s t h hrt hr
  refine ⟨_, exec_lw_inRange ((dmemInRange_iff t _).2 hr), ?_⟩
  rw [(wroteReg_writeBack t rt' _).written hrt]
  cases exec_sw_next h
  exact dmemRead_dmemWrite s _ _ _

/-! ## What one cycle writes (40_datapath.md R83, R91) -/

/-- `t` differs from `s` in at most one register, or in at most one cell, not in both. -/
def State.ChangesAtMostOne (s t : State) : Prop :=
  (s.SameMemory t ∧ ∃ d, ∀ r, t.readReg r ≠ s.readReg r → r = d) ∨
  (s.SameRegs t ∧ ∃ a, ∀ b, t.dmem.read b ≠ s.dmem.read b → b = a)

theorem State.WroteReg.changesAtMostOne {s t : State} {d : RegIdx} {v : Word} (h : s.WroteReg t d v) :
    s.ChangesAtMostOne t :=
  .inl ⟨h.memory, d, fun r => not_imp_comm.1 fun hr => h.otherRegs r (.inr hr)⟩

theorem State.StoredCell.changesAtMostOne {s t : State} {a : Nat} {v : Word} (h : s.StoredCell t a v) :
    s.ChangesAtMostOne t :=
  .inr ⟨h.regs, a, fun b => not_imp_comm.1 (h.otherCells b)⟩

theorem changesAtMostOne_of_same {s t : State} (hr : s.SameRegs t) (hm : s.SameMemory t) : s.ChangesAtMostOne t :=
  .inl ⟨hm, 0#5, fun r h => absurd (hr r) h⟩

theorem exec_next_changesAtMostOne {i : Instr} {s t : State} (h : exec i s = .next t) : s.ChangesAtMostOne t := by
  rcases exec_next_cases h with ⟨d, v, rfl, _, _⟩ | ⟨rs, rt, imm, _, _, rfl⟩ | ⟨rs, rt, imm, _, rfl⟩
  · exact (wroteReg_writeBack s d v).changesAtMostOne
  · exact (storedCell_dmemWrite s _ _).changesAtMostOne
  · exact changesAtMostOne_of_same (onlyPc_setPc s _).regs (onlyPc_setPc s _).memory

theorem step_leaves_changesAtMostOne {s t : State} (h : leaves (step s) t) : s.ChangesAtMostOne t := by
  rcases step_leaves_cases h with hn | ⟨kind, word, addr, rfl⟩
  · obtain ⟨_, w, _, ⟨_, _, _, _, rfl⟩ | ⟨i, _, hi⟩⟩ := step_next_cases hn
    · exact changesAtMostOne_of_same (onlyPc_advance s).regs (onlyPc_advance s).memory
    · exact exec_next_changesAtMostOne hi
  · exact changesAtMostOne_of_same (fun _ => rfl) fun _ => rfl

/-- Settles O30: two changed registers, or two changed cells, are the one that changed. -/
theorem atMostOneWriteACycle : Obligations.AtMostOneWriteACycle := by
  intro s t h
  rcases step_leaves_changesAtMostOne h with ⟨hmem, d, hd⟩ | ⟨hregs, a, ha⟩
  · exact ⟨.inr hmem, fun r r' hr hr' => (hd r hr).trans (hd r' hr').symm, fun b _ hb => absurd (hmem b) hb⟩
  · exact ⟨.inl hregs, fun r _ hr => absurd (hregs r) hr, fun b b' hb hb' => (ha b hb).trans (ha b' hb').symm⟩

/-! ## The invariant (10_state.md R27, R29) -/

theorem inv_iff (s : State) : s.inv = true ↔
    s.dmem.wf = true ∧ (∀ p ∈ s.dmem, p.1 < s.dmemWords) ∧ (1 ≤ s.dmemWords ∧ s.dmemWords ≤ Config.maxDmemWords) ∧
    ∀ r, s.fault = some r → r.justified s = true := by
  unfold State.inv
  cases s.fault with
  | none => simp [and_assoc]
  | some r => simp [and_assoc]

theorem launch_inv {l : Launch} (h : l.wf = true) : (State.launch l).inv = true :=
  (inv_iff _).2 ⟨launch_wf l, nofun, of_decide_eq_true h, nofun⟩

/-- Settles O3: a launch lists no cell and no fault record, and reset is the default launch. -/
theorem launchMeetsTheInvariant : Obligations.LaunchMeetsTheInvariant :=
  ⟨fun _ => launch_inv, launch_inv (l := defaultLaunch) (by decide)⟩

/-! ## The memory a step leaves (20_memory.md R34, entry 15) -/

theorem exec_next_dmem {i : Instr} {s t : State} (h : exec i s = .next t) :
    t.dmem = s.dmem ∨ ∃ ea v, s.dmemInRange ea = true ∧ t.dmem = s.dmem.write ea.toNat v := by
  rcases exec_next_cases h with ⟨d, v, rfl, _, _⟩ | ⟨rs, rt, imm, _, hr, rfl⟩ | ⟨rs, rt, imm, _, rfl⟩
  · exact .inl (by rw [State.writeBack, advance_dmem, writeReg_dmem])
  · exact .inr ⟨_, _, hr, rfl⟩
  · exact .inl rfl

/-- The data memory a step leaves is the one before, or that with one cell written that exists. -/
theorem step_leaves_dmem {s t : State} (h : leaves (step s) t) :
    t.dmem = s.dmem ∨ ∃ ea v, s.dmemInRange ea = true ∧ t.dmem = s.dmem.write ea.toNat v := by
  rcases step_leaves_cases h with hn | ⟨kind, word, addr, rfl⟩
  · obtain ⟨_, w, _, ⟨_, _, _, _, rfl⟩ | ⟨i, _, hi⟩⟩ := step_next_cases hn
    · exact .inl rfl
    · exact exec_next_dmem hi
  · exact .inl rfl

theorem write_listed_lt {s : State} {ea : Word} (hr : s.dmemInRange ea = true) (v : Word)
    (h : ∀ p ∈ s.dmem, p.1 < s.dmemWords) : ∀ p ∈ s.dmem.write ea.toNat v, p.1 < s.dmemWords := by
  intro p hp
  rcases Memory.mem_write hp with ⟨rfl, _⟩ | hp
  · exact (dmemInRange_iff s ea).1 hr
  · exact h p hp

/-- Every step keeps the memory canonical and inside `DMEM`. -/
theorem step_leaves_memory {s t : State} (h : leaves (step s) t) (hwf : s.dmem.wf = true)
    (hcells : ∀ p ∈ s.dmem, p.1 < s.dmemWords) : t.dmem.wf = true ∧ ∀ p ∈ t.dmem, p.1 < s.dmemWords := by
  rcases step_leaves_dmem h with hm | ⟨ea, v, hr, hm⟩
  · rw [hm]
    exact ⟨hwf, hcells⟩
  · rw [hm]
    exact ⟨Memory.write_wf hwf _ v, write_listed_lt hr v hcells⟩

/-! ## The record a step leaves (60_exceptions.md R105, R110) -/

/-- Whether a record is justified does not depend on the record the state holds. -/
theorem justified_takeFault (r : FaultRecord) (s : State) (kind : FaultKind) (word addr : Option Word) :
    r.justified (s.takeFault kind word addr) = r.justified s := rfl

/-- A record in the state a step leaves was set by it, and is justified. -/
theorem step_leaves_justified {s t : State} (h : leaves (step s) t) {r : FaultRecord} (hr : t.fault = some r) :
    r.justified t = true := by
  have hf : s.fault = none := fault_eq_none_of_leaves h
  cases hs : step s with
  | next t' =>
    rw [hs] at h
    cases h
    cases (hr.symm.trans (step_next_fault hs)).trans hf
  | refused r => exact absurd hs (step_not_refused s r)
  | fault f =>
    obtain ⟨kind, word, addr, hafter, hjust⟩ := stateAfter_of_step_fault hf hs
    rw [hs] at h
    cases h.symm.trans hafter
    cases hr
    rw [justified_takeFault, hjust]

/-- Settles O33: a step writes at most one cell, which exists, keeps `DMEM_WORDS`, and sets only justified records. -/
theorem stepKeepsTheInvariant : Obligations.StepKeepsTheInvariant := by
  intro s t hs h
  obtain ⟨hwf, hcells, hsize, _⟩ := (inv_iff s).1 hs
  obtain ⟨hwf', hcells'⟩ := step_leaves_memory h hwf hcells
  rw [inv_iff, (step_leaves_sameLaunch h).dmemWords]
  exact ⟨hwf', hcells', hsize, fun r => step_leaves_justified h⟩

/-- Settles O34: a launch meets the invariant and every step keeps it. -/
theorem runsMeetTheInvariant : Obligations.RunsMeetTheInvariant :=
  fun _ k hl => run_induction (P := fun s => s.inv = true) stepKeepsTheInvariant (launch_inv hl) k

end Sys2Proof.Machine

/-!
PROOFS. The statement of 40_datapath.md section 4: the cycle by control signals is the step by instructions. Each row of the
control table gives the signals of its words; the free values of the zero bundle reach no commit (30_encoding.md R59).
-/

namespace Sys2Proof.Machine

/-! ## The signals of a row (40_datapath.md R69-R81) -/

theorem controlOf_of_controlRow {op func : Code} {c : ControlSignals} (h : controlRow op func = some c) :
    controlOf op func = c := by
  rw [controlOf, h, Option.getD_some]

theorem writeBack_eq_setPc (s : State) (d : RegIdx) (v : Word) :
    s.writeBack d v = (s.writeReg d v).setPc (s.pc + 1#32) := by
  rw [State.writeBack, State.advance, writeReg_pc]

section signals
variable {w : Word} (s : State)

theorem accessesMemory_signals {c : ControlSignals} (h : controlOf (fieldOp w) (fieldFunc w) = c) :
    (s.signals w).accessesMemory = (c.memWrite || c.memToReg) := by
  subst h
  rfl

theorem result_signals {c : ControlSignals} (h : controlOf (fieldOp w) (fieldFunc w) = c) : (s.signals w).result =
    alu c.aluOp (s.readReg (fieldRs w)) (selectB c.aluSrc (s.readReg (fieldRt w)) (sext32 (fieldImm w))) := by
  subst h
  rfl

/-! ## The commit of a row (40_datapath.md R83, R86, R90) -/

theorem commit_rFormat {o : AluOp} (h : controlOf (fieldOp w) (fieldFunc w) = rFormatSignals o) :
    s.commit (s.signals w) =
      s.writeBack (fieldRd w) (alu o (s.readReg (fieldRs w)) (s.readReg (fieldRt w))) := by
  rw [writeBack_eq_setPc]
  simp only [State.commit, State.signals, decodeFields, h]
  rfl

theorem commit_immediate {o : AluOp} (h : controlOf (fieldOp w) (fieldFunc w) = immediateSignals o) :
    s.commit (s.signals w) =
      s.writeBack (fieldRt w) (alu o (s.readReg (fieldRs w)) (sext32 (fieldImm w))) := by
  rw [writeBack_eq_setPc]
  simp only [State.commit, State.signals, decodeFields, h]
  rfl

theorem commit_lw (h : controlOf (fieldOp w) (fieldFunc w) = lwSignals) : s.commit (s.signals w) =
    s.writeBack (fieldRt w) (s.dmemRead (s.effectiveAddress (fieldRs w) (fieldImm w))) := by
  rw [writeBack_eq_setPc]
  simp only [State.commit, State.signals, decodeFields, h]
  rfl

theorem commit_sw (h : controlOf (fieldOp w) (fieldFunc w) = swSignals) : s.commit (s.signals w) =
    (s.dmemWrite (s.effectiveAddress (fieldRs w) (fieldImm w)) (s.readReg (fieldRt w))).advance := by
  simp only [State.commit, State.signals, decodeFields, h]
  rfl

theorem commit_beq (h : controlOf (fieldOp w) (fieldFunc w) = beqSignals) : s.commit (s.signals w) =
    s.setPc (nextPc s.pc (eqFlag (s.readReg (fieldRs w)) (s.readReg (fieldRt w))) (sext32 (fieldImm w))) := by
  simp only [State.commit, State.signals, decodeFields, h]
  rfl

/-- The zero bundle writes nothing and does not branch, whatever its ALU result is. -/
theorem commit_zeroBundle (h : controlOf (fieldOp w) (fieldFunc w) = zeroBundle) :
    s.commit (s.signals w) = s.advance := by
  simp only [State.commit, State.signals, decodeFields, h]
  rfl

end signals

/-! ## The cycle of a row (40_datapath.md R89) -/

section cycle
variable {s : State} {w : Word} (hf : s.fault = none) (hw : s.fetch = some w)
include hf hw

/-- A word the control unit matches commits its signals, unless it accesses a cell that does not exist. -/
theorem cycle_of_controlRow {c : ControlSignals} (hc : controlRow (fieldOp w) (fieldFunc w) = some c) : cycle s =
    if (c.memWrite || c.memToReg) = true ∧ s.dmemInRange (s.signals w).result = false then
      s.raiseAddressOutOfRange w (s.signals w).result
    else .next (s.commit (s.signals w)) := by
  have hrow : controlRow (s.signals w).fields.op (s.signals w).fields.func = some c := hc
  have hmem := accessesMemory_signals s (controlOf_of_controlRow hc)
  simp only [cycle, hf, hw, hrow, hmem, Option.isNone_some, Bool.false_eq_true, false_and, if_false]

/-- A row without a memory access commits. -/
theorem cycle_noAccess {c : ControlSignals} {i : Instr} (hc : controlRow (fieldOp w) (fieldFunc w) = some c)
    (hmem : (c.memWrite || c.memToReg) = false) (hd : decode w = .instr i)
    (hi : exec i s = .next (s.commit (s.signals w))) : cycle s = execWord w s := by
  rw [execWord_instr hd, hi, cycle_of_controlRow hf hw hc, hmem]
  exact if_neg fun h => Bool.false_ne_true h.1

theorem cycle_rFormat (o : AluOp) {i : Instr} (hc : controlRow (fieldOp w) (fieldFunc w) = some (rFormatSignals o))
    (hd : decode w = .instr i)
    (hi : exec i s = .next (s.writeBack (fieldRd w) (alu o (s.readReg (fieldRs w)) (s.readReg (fieldRt w))))) :
    cycle s = execWord w s :=
  cycle_noAccess hf hw hc rfl hd (commit_rFormat s (controlOf_of_controlRow hc) ▸ hi)

theorem cycle_immediate (o : AluOp) {i : Instr}
    (hc : controlRow (fieldOp w) (fieldFunc w) = some (immediateSignals o)) (hd : decode w = .instr i)
    (hi : exec i s = .next (s.writeBack (fieldRt w) (alu o (s.readReg (fieldRs w)) (sext32 (fieldImm w))))) :
    cycle s = execWord w s :=
  cycle_noAccess hf hw hc rfl hd (commit_immediate s (controlOf_of_controlRow hc) ▸ hi)

/-- A row with a memory access checks the range of the ALU result, which is the effective address. -/
theorem cycle_access {c : ControlSignals} {i : Instr} {rs rt : RegIdx} {imm : Half}
    (hc : controlRow (fieldOp w) (fieldFunc w) = some c) (hmem : (c.memWrite || c.memToReg) = true)
    (hea : (s.signals w).result = s.effectiveAddress rs imm) (hd : decode w = .instr i)
    (hi : i = .lw rs rt imm ∨ i = .sw rs rt imm)
    (hin : s.dmemInRange (s.effectiveAddress rs imm) = true → exec i s = .next (s.commit (s.signals w))) :
    cycle s = execWord w s := by
  rw [execWord_instr hd, cycle_of_controlRow hf hw hc, hmem, hea]
  cases hr : s.dmemInRange (s.effectiveAddress rs imm) with
  | true =>
    rw [hin hr]
    exact if_neg fun h => Bool.false_ne_true h.2.symm
  | false =>
    rw [exec_access_outOfRange hi hr, encode_of_decode_access hd hi]
    exact if_pos ⟨rfl, rfl⟩

/-- A word the control unit does not match has the zero bundle, or takes the fault the policy asks for. -/
theorem cycle_unsupported (hc : controlRow (fieldOp w) (fieldFunc w) = none) : cycle s = execUnsupported w s := by
  have hzero := controlOf_of_controlRow_none hc
  have hrow : controlRow (s.signals w).fields.op (s.signals w).fields.func = none := hc
  have hmem : (s.signals w).accessesMemory = false := accessesMemory_signals s hzero
  cases hp : s.policy with
  | nop =>
    rw [execUnsupported_nop hp, ← commit_zeroBundle s hzero]
    simp [cycle, hf, hw, hp, hmem]
  | fault =>
    rw [execUnsupported_fault hp]
    simp [cycle, hf, hw, hp, hrow]

/-- The cycle of a fetched word, row by row. -/
theorem cycle_fetched : cycle s = execWord w s := by
  rcases decode_cases w with ⟨hop, hfn, hd⟩ | ⟨hop, hfn, hd⟩ | ⟨hop, hfn, hd⟩ | ⟨hop, hd⟩ | ⟨hop, hd⟩ | ⟨hop, hd⟩ |
    ⟨hop, hd⟩ | ⟨hop, hd⟩ | ⟨hop, hd⟩ | ⟨hc, hd⟩
  · exact cycle_rFormat hf hw .add (by rw [hop, hfn]; rfl) hd rfl
  · exact cycle_rFormat hf hw .and (by rw [hop, hfn]; rfl) hd rfl
  · exact cycle_rFormat hf hw .slt (by rw [hop, hfn]; rfl) hd rfl
  · exact cycle_immediate hf hw .add (by rw [hop]; rfl) hd rfl
  · exact cycle_immediate hf hw .shl16 (by rw [hop]; rfl) hd rfl
  · exact cycle_immediate hf hw .or (by rw [hop]; rfl) hd rfl
  · have hc : controlRow (fieldOp w) (fieldFunc w) = some lwSignals := by rw [hop]; rfl
    have hctl := controlOf_of_controlRow hc
    exact cycle_access hf hw hc rfl (result_signals s hctl) hd (.inl rfl) fun hr =>
      commit_lw s hctl ▸ exec_lw_inRange hr
  · have hc : controlRow (fieldOp w) (fieldFunc w) = some swSignals := by rw [hop]; rfl
    have hctl := controlOf_of_controlRow hc
    exact cycle_access hf hw hc rfl (result_signals s hctl) hd (.inr rfl) fun hr =>
      commit_sw s hctl ▸ exec_sw_inRange hr
  · have hc : controlRow (fieldOp w) (fieldFunc w) = some beqSignals := by rw [hop]; rfl
    exact cycle_noAccess hf hw hc rfl hd (commit_beq s (controlOf_of_controlRow hc) ▸ rfl)
  · rw [execWord_unsupported hd, cycle_unsupported hf hw hc]

end cycle

/-- Settles O32: a faulted state and a fetch past the image stop both alike, and a fetched word's cycle is its row's. -/
theorem datapathCycleIsTheStep : Obligations.DatapathCycleIsTheStep := by
  intro s
  cases hf : s.fault with
  | some r => simp only [cycle, step_faulted hf, hf]
  | none =>
    cases hw : s.fetch with
    | none => simp only [cycle, step_of_fetch_none hf hw, hf, hw]
    | some w => rw [step_fetched hf hw, cycle_fetched hf hw]

end Sys2Proof.Machine
